-- ==== Sys2Proof/Word.lean ====
section
/-! DEFINITION. The word types of the block (R16): bytes of the sample stream and 5-bit command words. All quantities
are unsigned (R16); counters are natural numbers with stated bounds and never wrap. -/

namespace Sys2Proof

/-- One byte of `BUF` or of the sink stream, unsigned (R51; D18). -/
abbrev Byte := BitVec 8

/-- A command word as a request port presents it and `CMD` holds it (R70). -/
abbrev CmdWord := BitVec 5

end Sys2Proof
end

