-- ==== Sys2Proof/Config.lean ====
section
/-! DEFINITION. What an implementation fixes (R12) and the values the spec leaves open. The configuration is plain data
and every statement quantifies over it; each free value is an opaque constant without a body, so nothing can be proved
about which value it is. -/

namespace Sys2Proof

/-- The four configuration parameters of R12. They never change after instantiation (R29, U19). -/
structure Config where
  /-- samples per second of the output stream -/
  sampleRate : Nat
  /-- BitString bits per second -/
  bitRate    : Nat
  /-- samples of each flush run; the spec gives no value (D10) -/
  flushLen   : Nat
  /-- request ports; the spec gives no value (D11) -/
  nPorts     : Nat
  deriving DecidableEq, Repr

/-- The reference rates (D6) with the flush length and port count of the spec's own test vectors (95_test_vectors.md,
REF and V-Q1). DESIGN CHOICE, unsafe (log 3): the spec gives no `FLUSH_LEN` and no `N_PORTS`. -/
def Config.reference : Config :=
  { sampleRate := 150000, bitRate := 751, flushLen := 1000, nPorts := 2 }

/-- One move of the environment, made between two steps of the block (R37 (b) to (e), R196): the level of each input
in the coming step, the arbiter's choice for it, and the submissions raised before it. -/
structure EnvMove where
  rst      : Bool
  outReady : Bool
  sinkFail : Bool
  /-- where the arbiter begins to look for a pending port (R184) -/
  arb      : Nat
  /-- producers that raise a request: port and command word -/
  submits  : List (Nat × CmdWord)
  deriving DecidableEq, Repr, Inhabited

/-- Free value: what the environment does once the schedule in State is used up (R37; log 2). -/
opaque Config.freeMove : Nat → EnvMove

/-- Free value: `CMD` after a reset step or a sink fault (R38, R205; logs 5 and 6). -/
opaque Config.freeCmd : Nat → CmdWord

/-- Free value: `SIDX` in HALT, before it is cut to its range (R205; log 6). -/
opaque Config.freeSidx : Nat → Nat

/-- Free value: `RD` in HALT, before it is cut to its range (R205; log 6). -/
opaque Config.freeRd : Nat → Nat

/-- Free value: the contents of `BUF` in HALT as pairs of bytes, before they are cut to capacity (R205; log 6). -/
opaque Config.freeBuf : Nat → List (Byte × Byte)

/-- Free value: `out_data` while `out_valid = 0` (R31, V2), one for each pair of counter and remaining schedule length, a
pair that no later step of a run has again (log 7). -/
opaque Config.freeOutData : Nat → Nat → Byte

end Sys2Proof
end

