-- ==== Sys2Proof/Machine/Params.lean ====
section
/-! DEFINITION. The fixed constants of R11 and the derived constants of R13. All arithmetic is on natural numbers and
division truncates, the multiplication done first (R142). -/

namespace Sys2Proof

/-- GROUP_SLOTS (R11) -/
def groupSlots : Nat := 4

/-- ADDRESS_SLOTS (R11) -/
def addressSlots : Nat := 3

/-- PADDING_SLOTS (R11) -/
def paddingSlots : Nat := 4

/-- NBITS, the length of a BitString (R11, R104) -/
def nBits : Nat := (groupSlots + addressSlots + paddingSlots) * 2 + 2

/-- REPEATS (R11) -/
def repeats : Nat := 5

/-- NTX, how often the BitString is sent (R11) -/
def nTx : Nat := repeats + 1

/-- I byte of a full-amplitude sample (R11) -/
def iFull : Byte := 255#8

/-- I byte of a zero-amplitude sample (R11) -/
def iZero : Byte := 127#8

/-- Q byte of every sample (R11) -/
def qAny : Byte := 127#8

/-- SYMLEN, samples per bit (R13, D7; log 14) -/
def Config.symLen (c : Config) : Nat := c.sampleRate / c.bitRate

/-- SHORT, the pulse of a 0 bit and the pause of a 1 bit (R13, D8; log 14) -/
def Config.short (c : Config) : Nat := c.symLen * 3 / 10

/-- LONG, the complement of SHORT in a symbol slot, not a rounding of 70% (R13, D8; 90_conflicts.md C2; log 14) -/
def Config.long (c : Config) : Nat := c.symLen - c.short

/-- BLANK_LEN (R13, D9; log 14) -/
def Config.blankLen (c : Config) : Nat := c.symLen * 13 / 2

/-- BODY_LEN, samples of one BitString (R13) -/
def Config.bodyLen (c : Config) : Nat := nBits * c.symLen

/-- REP_STRIDE, a non-final repetition with its separator (R13) -/
def Config.repStride (c : Config) : Nat := c.bodyLen + c.symLen + c.blankLen

/-- TX_SAMPLES (R13) -/
def Config.txSamples (c : Config) : Nat :=
  2 * c.flushLen + nTx * c.bodyLen + repeats * (c.symLen + c.blankLen)

/-- TX_BYTES, the capacity of BUF (R13, R32) -/
def Config.txBytes (c : Config) : Nat := 2 * c.txSamples

end Sys2Proof
end

