-- ==== Sys2Proof/Machine/Pulse.lean ====
section
/-! DEFINITION. Samples (20_memory.md R51, R52) and the Pulse-Width Modulator (41_pulse_width_modulator.md R140 to
R149): one bit to a pulse run and a pause run that fill one symbol slot. -/

namespace Sys2Proof

/-- "Two sample classes only" (R51). -/
inductive Sample where
  | full | zero
  deriving DecidableEq, Repr

/-- A sample as two bytes, I then Q (R51, R52). -/
def Sample.bytes : Sample → List Byte
  | .full => [iFull, qAny]
  | .zero => [iZero, qAny]

/-- `bytes(s)` of a sample sequence (R18). -/
def bytesOf (ss : List Sample) : List Byte := ss.flatMap Sample.bytes

/-- `F(n)` (R18) -/
def fullRun (n : Nat) : List Sample := List.replicate n .full

/-- `Z(n)` (R18) -/
def zeroRun (n : Nat) : List Sample := List.replicate n .zero

/-- `pulseLength(v)` (R141) -/
def Config.pulseLength (c : Config) (v : Bool) : Nat := if v then c.long else c.short

/-- `pauseLength(v)` (R141) -/
def Config.pauseLength (c : Config) (v : Bool) : Nat := if v then c.short else c.long

/-- `bit(v)`: the pulse, then the pause (R143 to R145). -/
def bitSamples (c : Config) (v : Bool) : List Sample :=
  fullRun (c.pulseLength v) ++ zeroRun (c.pauseLength v)

/-- `bitsample(v, t)`: the sample-indexed form of `bit(v)` (R145). -/
def bitSampleAt (c : Config) (v : Bool) (t : Nat) : Sample :=
  if t < c.pulseLength v then .full else .zero

/-- `body(bs)`: the bits in index order (R148). -/
def body (c : Config) (bs : List Bool) : List Sample := bs.flatMap (bitSamples c)

end Sys2Proof
end

