-- ==== Sys2Proof/Syntax.lean ====
section
/-! DEFINITION. The Commands: the three fields the source gives (§3, R71 to R73) and the 24 instructions of
spec/opcode_table.json, one constructor a row (R75). A Command names no register and has no operand (R23, R74). -/

namespace Sys2Proof

/-- "which of four independent receivers is addressed" (R71). -/
inductive Group where
  | a | b | c | d
  deriving DecidableEq, Repr

/-- "a sub-channel/outlet within the receiver" (R72); `one` is the address written `1`. -/
inductive Address where
  | one | two | three
  deriving DecidableEq, Repr

/-- A Command as its three fields; `state` is true for on (R73). -/
structure Command where
  group   : Group
  address : Address
  state   : Bool
  deriving DecidableEq, Repr

/-- The 24 Commands in the table's order (R75): group letter, address digit, `On` for `+` and `Off` for `-`. -/
inductive Instr where
  | a1On | a1Off | a2On | a2Off | a3On | a3Off
  | b1On | b1Off | b2On | b2Off | b3On | b3Off
  | c1On | c1Off | c2On | c2Off | c3On | c3Off
  | d1On | d1Off | d2On | d2Off | d3On | d3Off
  deriving DecidableEq, Repr

end Sys2Proof
end

