-- ==== Sys2Proof/WellFormed.lean ====
section
/-! DEFINITION. What is well formed: a configuration (R12, D19) and a command word (R76). An instruction of the
type `Instr` has no operands, so it has nothing of its own to check; its word is checked. -/

namespace Sys2Proof

/-- R12: `BIT_RATE >= 1`, `SAMPLE_RATE >= 4 * BIT_RATE`, `FLUSH_LEN >= 1`, `N_PORTS >= 1`. -/
def Config.wf (c : Config) : Bool :=
  decide (1 ≤ c.bitRate) && decide (4 * c.bitRate ≤ c.sampleRate) && decide (1 ≤ c.flushLen) && decide (1 ≤ c.nPorts)

/-- R76: a word is legal exactly when its address field `w[2:1]` is not `0b11`. -/
def CmdWord.legal (w : CmdWord) : Bool :=
  w.extractLsb' 1 2 != 0b11#2

end Sys2Proof
end

