-- ==== Sys2Proof/Decode.lean ====
section
/-! DEFINITION. The command word format CMD5 (R70 to R77), the opcode map (R75) and the Ingress's identifiers
(R85 to R89). `decode` is total on 5-bit words: one of the 24 Commands, or none for the eight reserved words. -/

namespace Sys2Proof

/-! ### The three fields of a word (R70, R74) -/

/-- `w[4:3]` -/
def groupField (w : CmdWord) : BitVec 2 := w.extractLsb' 3 2

/-- `w[2:1]` -/
def addressField (w : CmdWord) : BitVec 2 := w.extractLsb' 1 2

/-- `w[0]` -/
def stateField (w : CmdWord) : BitVec 1 := w.extractLsb' 0 1

/-- Group ordinals in enumeration order A, B, C, D (R71, D4). -/
def Group.ordinal : Group → Nat
  | .a => 0
  | .b => 1
  | .c => 2
  | .d => 3

/-- Address ordinals: the field holds the ordinal, not the digit (R72, D4). -/
def Address.ordinal : Address → Nat
  | .one => 0
  | .two => 1
  | .three => 2

/-- The group a field value denotes (R71). -/
def groupOfField (f : BitVec 2) : Group :=
  match f.toNat with
  | 0 => .a
  | 1 => .b
  | 2 => .c
  | _ => .d

/-- The address a field value denotes; 3 denotes none and is reserved (R72, R77). -/
def addressOfField (f : BitVec 2) : Option Address :=
  match f.toNat with
  | 0 => some .one
  | 1 => some .two
  | 2 => some .three
  | _ => none

/-! ### Commands and instructions -/

/-- The three fields of each instruction (R75). -/
def Instr.command : Instr → Command
  | .a1On  => ⟨.a, .one, true⟩
  | .a1Off => ⟨.a, .one, false⟩
  | .a2On  => ⟨.a, .two, true⟩
  | .a2Off => ⟨.a, .two, false⟩
  | .a3On  => ⟨.a, .three, true⟩
  | .a3Off => ⟨.a, .three, false⟩
  | .b1On  => ⟨.b, .one, true⟩
  | .b1Off => ⟨.b, .one, false⟩
  | .b2On  => ⟨.b, .two, true⟩
  | .b2Off => ⟨.b, .two, false⟩
  | .b3On  => ⟨.b, .three, true⟩
  | .b3Off => ⟨.b, .three, false⟩
  | .c1On  => ⟨.c, .one, true⟩
  | .c1Off => ⟨.c, .one, false⟩
  | .c2On  => ⟨.c, .two, true⟩
  | .c2Off => ⟨.c, .two, false⟩
  | .c3On  => ⟨.c, .three, true⟩
  | .c3Off => ⟨.c, .three, false⟩
  | .d1On  => ⟨.d, .one, true⟩
  | .d1Off => ⟨.d, .one, false⟩
  | .d2On  => ⟨.d, .two, true⟩
  | .d2Off => ⟨.d, .two, false⟩
  | .d3On  => ⟨.d, .three, true⟩
  | .d3Off => ⟨.d, .three, false⟩

/-- The instruction with these three fields. -/
def Command.instr : Command → Instr
  | ⟨.a, .one, true⟩    => .a1On
  | ⟨.a, .one, false⟩   => .a1Off
  | ⟨.a, .two, true⟩    => .a2On
  | ⟨.a, .two, false⟩   => .a2Off
  | ⟨.a, .three, true⟩  => .a3On
  | ⟨.a, .three, false⟩ => .a3Off
  | ⟨.b, .one, true⟩    => .b1On
  | ⟨.b, .one, false⟩   => .b1Off
  | ⟨.b, .two, true⟩    => .b2On
  | ⟨.b, .two, false⟩   => .b2Off
  | ⟨.b, .three, true⟩  => .b3On
  | ⟨.b, .three, false⟩ => .b3Off
  | ⟨.c, .one, true⟩    => .c1On
  | ⟨.c, .one, false⟩   => .c1Off
  | ⟨.c, .two, true⟩    => .c2On
  | ⟨.c, .two, false⟩   => .c2Off
  | ⟨.c, .three, true⟩  => .c3On
  | ⟨.c, .three, false⟩ => .c3Off
  | ⟨.d, .one, true⟩    => .d1On
  | ⟨.d, .one, false⟩   => .d1Off
  | ⟨.d, .two, true⟩    => .d2On
  | ⟨.d, .two, false⟩   => .d2Off
  | ⟨.d, .three, true⟩  => .d3On
  | ⟨.d, .three, false⟩ => .d3Off

/-! ### Decode and encode -/

/-- The Command a word stands for: three slices (R74); none when the address field is reserved (R77). -/
def decodeCommand (w : CmdWord) : Option Command :=
  match addressOfField (addressField w) with
  | some a => some ⟨groupOfField (groupField w), a, stateField w == 1#1⟩
  | none => none

/-- The instruction of a command word, none for the eight reserved words (R75 to R77). -/
def decode (w : CmdWord) : Option Instr :=
  match decodeCommand w with
  | some c => some c.instr
  | none => none

/-- `w = 8 * group + 2 * address + state` (R74). -/
def encodeCommand (c : Command) : CmdWord :=
  BitVec.ofNat 5 (8 * c.group.ordinal + 2 * c.address.ordinal + c.state.toNat)

/-- The command word of an instruction (R75). -/
def encode (i : Instr) : CmdWord := encodeCommand i.command

/-- The decoder on a row of the opcode table. The word is the low five bits; a number with a bit above them is no
command word (log 15). The width the table gives a row makes no difference, every word has five bits (R79). -/
def decodeTableWord (_nbits w : Nat) : Option Instr :=
  if w < 32 then decode (BitVec.ofNat 5 w) else none

/-! ### The Ingress's identifiers (R85 to R89)

The block never sees an identifier; this is the contract by which the Ingress, outside it, names the Commands. -/

/-- `A`, `B`, `C`, `D` (R86). -/
def Group.letter : Group → Char
  | .a => 'A'
  | .b => 'B'
  | .c => 'C'
  | .d => 'D'

/-- `1`, `2`, `3` (R87). -/
def Address.digit : Address → Char
  | .one => '1'
  | .two => '2'
  | .three => '3'

/-- `+` for on, `-` for off (R88). -/
def signOf (state : Bool) : Char := if state then '+' else '-'

/-- The three characters of an instruction's identifier, which is its mnemonic (R85). -/
def Instr.identifier (i : Instr) : List Char :=
  [i.command.group.letter, i.command.address.digit, signOf i.command.state]

/-- R86; a letter outside {A, B, C, D} is no group (log 21). -/
def groupOfLetter (ch : Char) : Option Group :=
  if ch = 'A' then some .a else if ch = 'B' then some .b else if ch = 'C' then some .c
  else if ch = 'D' then some .d else none

/-- R87. -/
def addressOfDigit (ch : Char) : Option Address :=
  if ch = '1' then some .one else if ch = '2' then some .two else if ch = '3' then some .three else none

/-- R88. -/
def stateOfSign (ch : Char) : Option Bool :=
  if ch = '+' then some true else if ch = '-' then some false else none

/-- The Ingress's reading of an identifier: `<group-letter><address-digit><sign>`, and anything else is rejected before
a Command exists (R85, R89). -/
def ofIdentifier : List Char → Option Instr
  | [l, d, s] =>
    match groupOfLetter l, addressOfDigit d, stateOfSign s with
    | some g, some a, some st => some (Command.instr ⟨g, a, st⟩)
    | _, _, _ => none
  | _ => none

end Sys2Proof
end

