-- ==== Sys2Proof/Machine/Symbols.lean ====
section
/-! DEFINITION. The Symbol Encoder (40_symbol_encoder.md R100 to R108): a Command to its 24-bit BitString. It takes a
Command, not a word, so a reserved word has no BitString (R77, R107). Bits are Booleans, true for 1; the first
element of a list is `b[0]`, the first bit sent (R17, D5; log 16). -/

namespace Sys2Proof

/-- The four symbols; the first eleven of a BitString are mark or pad, the last is on or off (R100 to R103; C7). -/
inductive Symbol where
  | mark | pad | on | off
  deriving DecidableEq, Repr

/-- mark `00`, pad `01`, state-on `11`, state-off `00` (R100 to R103; C1; log 16) -/
def Symbol.bits : Symbol → List Bool
  | .mark => [false, false]
  | .pad  => [false, true]
  | .on   => [true, true]
  | .off  => [false, false]

/-- One-hot placement over `n` slots: the mark at the slot equal to the ordinal, the pad elsewhere (R105 steps 1, 2). -/
def oneHot (n ordinal : Nat) : List Symbol :=
  (List.range n).map fun k => if k = ordinal then .mark else .pad

/-- The twelve symbols in order: group slots, address slots, padding slots, state (R104, R105). -/
def symbols (c : Command) : List Symbol :=
  oneHot groupSlots c.group.ordinal ++ oneHot addressSlots c.address.ordinal
    ++ List.replicate paddingSlots .pad ++ [if c.state then .on else .off]

/-- `encode(w)` of R105 on the Command of a legal word. -/
def bitString (c : Command) : List Bool := (symbols c).flatMap Symbol.bits

/-- `encode(w)` of R105 on a word; none for a reserved one, to which R77 gives no BitString. -/
def bitStringOfWord (w : CmdWord) : Option (List Bool) :=
  match decodeCommand w with
  | some c => some (bitString c)
  | none => none

/-- A BitString as a number with `b[0]` most significant, the hexadecimal convenience form of R17. -/
def bitsToNat (bs : List Bool) : Nat := bs.foldl (fun n b => 2 * n + b.toNat) 0

end Sys2Proof
end

