-- ==== Sys2Proof/Machine/Framing.lean ====
section
/-! DEFINITION. The Framing Engine (42_framing_engine.md R160 to R175): the sample sequence of a whole transmission,
once as the algorithm builds it (R165) and once in the closed form the synthesize step evaluates (R167). -/

namespace Sys2Proof

/-- The separator after a non-final repetition: continuation bit, then blank gap (R163, R164; C4). -/
def separator (c : Config) : List Sample := bitSamples c false ++ zeroRun c.blankLen

/-- Repetition `r`: the body, and a separator unless it is the final one (R162, R165 step 2). -/
def repetition (c : Config) (bs : List Bool) (r : Nat) : List Sample :=
  body c bs ++ (if r = repeats then [] else separator c)

/-- `TXS(c)` (R165): leading flush run, six repetitions, trailing flush run. -/
def txs (c : Config) (cmd : Command) : List Sample :=
  zeroRun c.flushLen ++ (List.range nTx).flatMap (repetition c (bitString cmd)) ++ zeroRun c.flushLen

/-- `TX(c)`, the bytes of a transmission (R165). -/
def tx (c : Config) (cmd : Command) : List Byte := bytesOf (txs c cmd)

/-- `sample(c, n)` for `n < TX_SAMPLES` (R167). -/
def sampleAt (c : Config) (cmd : Command) (n : Nat) : Sample :=
  if n < c.flushLen then .zero
  else
    let m := n - c.flushLen
    if repeats * c.repStride + c.bodyLen ≤ m then .zero
    else
      let u := m % c.repStride
      if u < c.bodyLen then
        bitSampleAt c ((bitString cmd).getD (u / c.symLen) false) (u % c.symLen)
      else if u < c.bodyLen + c.symLen then bitSampleAt c false (u - c.bodyLen)
      else .zero

end Sys2Proof
end

