-- ==== Sys2Proof/Machine/State.lean ====
section
/-! DEFINITION. The state of the machine (10_state.md R20 to R38): the block's six elements, the environment's state
that the rules read (R35, R31), the observation SINK (R34), and the model's own fields (configuration, arbiter's choice,
the environment's schedule, the counter of free values). The reasons a step can stop, and the state after reset. -/

namespace Sys2Proof.Machine

/-- The coarse part of the control state (R25). -/
inductive Phase where
  | idle | synth | drain | halt
  deriving DecidableEq, Repr

/-- The sticky cause register FAULT (R28). Codes 2 and 3 are never produced, so two values suffice (V5; log 20). -/
inductive Cause where
  | none | sinkFault
  deriving DecidableEq, Repr

/-- BUF as a list of (address, byte) cells. Its canonical form is `Memory.wf` (Machine/Ops.lean): the addresses are
0, 1, 2, … in order. An address that is not listed holds no byte, and reading it faults (log 13). -/
abbrev Memory := List Host.Cell

/-- Why a step can fault. No state that meets the invariant of R36 raises either. -/
inductive Fault where
  /-- Raised by the synthesize step where R62's precondition `len(BUF) = 2 * SIDX < TX_BYTES` fails. Safe: the spec
  defines no append there (log 23). -/
  | appendOutsideBuffer
  /-- Raised by the drain step where R63's precondition `RD < TX_BYTES = len(BUF)` fails. Safe: the spec defines no
  read there (log 23). -/
  | readOutsideBuffer
  deriving DecidableEq, Repr

/-- Why a step can be refused. -/
inductive Refusal where
  /-- An instruction without a meaning in the model; raised only by exec's arms. Safe. -/
  | notModelled (mnemonic : String)
  /-- The only words pending in IDLE are reserved, or CMD holds one (which no accept writes): R77 gives such a word no
  behaviour and asks a model to refuse it. Raised by step and by the synthesize step. Safe (log 9). -/
  | reservedWord (w : CmdWord)
  /-- The configuration breaks R12; D19 asks a model to refuse it. Raised by step. Safe (log 22). -/
  | illegalConfig
  deriving DecidableEq, Repr

structure State where
  /-- SAMPLE_RATE, BIT_RATE, FLUSH_LEN, N_PORTS (R12); no step changes them (R29). -/
  cfg      : Config
  /-- PHASE (R25) -/
  phase    : Phase
  /-- CMD (R21) -/
  cmd      : CmdWord
  /-- SIDX, the index of the next sample to synthesize, the program counter (R24) -/
  sidx     : Nat
  /-- BUF, the transmit buffer (R32) -/
  buf      : Memory
  /-- RD, the drain index (R33) -/
  rd       : Nat
  /-- FAULT (R28) -/
  fault    : Cause
  /-- SINK, the bytes delivered since reset, oldest first; an observation, never read by the block (R34) -/
  sink     : List Byte
  /-- REQ[i], the submission pending on port i (R35) -/
  req      : List (Option CmdWord)
  /-- input `rst` in this step (R31, R220) -/
  rst      : Bool
  /-- input `out_ready` in this step (R31) -/
  outReady : Bool
  /-- input `sink_fail` in this step (R31, R203) -/
  sinkFail : Bool
  /-- the arbiter's free choice in this step (R184; log 8) -/
  arb      : Nat
  /-- the environment's coming moves, the next one first (R37; log 2) -/
  env      : List EnvMove
  /-- how many free values have been taken; the argument of the next one -/
  freeIx   : Nat
  deriving DecidableEq, Repr

/-- The reset state of R38 under a configuration, with nothing pending and every input low. `CMD` is unspecified by
R38 and is 0 here: DESIGN CHOICE, unsafe (log 4). The levels of the inputs, the arbiter's choice, the empty schedule and
the counter are the model's own: DESIGN CHOICE (log 18). -/
def State.resetWith (cfg : Config) : State :=
  { cfg := cfg, phase := .idle, cmd := 0, sidx := 0, buf := [], rd := 0, fault := .none, sink := []
    req := List.replicate cfg.nPorts none
    rst := false, outReady := false, sinkFail := false, arb := 0, env := [], freeIx := 0 }

/-- The machine right after reset, in the reference configuration (R38; logs 3, 4 and 18). -/
def State.reset : State := State.resetWith Config.reference

end Sys2Proof.Machine
end

