-- ==== Sys2Proof/Machine/Operands.lean ====
section
/-! DEFINITION. What a Command's execution takes as operands. A Command names no register and no address (R23, R74); its
operands are the port it is taken from with the word pending there (R183, R184), and, once it is in transmission, the
word latched in CMD (R21, R22). -/

namespace Sys2Proof.Machine

/-- `REQ[p]` (R35); a port the machine does not have holds nothing. -/
def State.reqAt (s : State) (p : Nat) : Option CmdWord := (s.req[p]?).join

/-- The ports in the order the arbiter looks at them: from `arb` on, cyclically. Every port comes first for some value of
`arb`, so every grant R184 allows is some choice of it (log 8). -/
def State.portOrder (s : State) : List Nat :=
  (List.range s.cfg.nPorts).map fun k => (s.arb + k) % s.cfg.nPorts

/-- Port `p` has a legal word pending (R183). -/
def State.pendingLegal (s : State) (p : Nat) : Bool :=
  match s.reqAt p with
  | some w => (decode w).isSome
  | none => false

/-- The port the accept step takes (R183, R184), none when no legal word is pending. -/
def State.granted (s : State) : Option Nat := s.portOrder.find? s.pendingLegal

/-- The port from which the word `w` is taken when it is the one accepted. -/
def State.portOf (s : State) (w : CmdWord) : Option Nat :=
  s.portOrder.find? fun p => s.reqAt p == some w

/-- The Command in transmission: CMD read through the decoder. -/
def State.command (s : State) : Option Command :=
  match decode s.cmd with
  | some i => some i.command
  | none => none

/-- BITS, the BitString of CMD (R22). It is defined exactly while CMD is, that is during a transmission: in IDLE and HALT
CMD is unspecified and no rule reads it (R21). -/
def State.bits (s : State) : Option (List Bool) :=
  match s.phase with
  | .idle => none
  | .synth => bitStringOfWord s.cmd
  | .drain => bitStringOfWord s.cmd
  | .halt => none

/-- The command word the next step runs. In IDLE it is the word on the granted port, or, where only reserved words are
pending, the first of those (which the decoder then refuses); in SYNTH and DRAIN the word in CMD, and the request ports
are not looked at (R60); in HALT none (R206). -/
def State.fetch (s : State) : Option CmdWord :=
  match s.phase with
  | .idle =>
    match s.granted with
    | some p => s.reqAt p
    | none => s.portOrder.findSome? s.reqAt
  | .synth => some s.cmd
  | .drain => some s.cmd
  | .halt => none

end Sys2Proof.Machine
end

