-- ==== Sys2Proof/Machine/Ops.lean ====
section
/-! DEFINITION. The named operations: the buffer's two primitives (R62, R63), the block's transitions (R183 to R188), the
fault entry (R205) and reset (R220), the environment's move between two steps (R35, R196), and the shared meaning of
the 24 Commands (R110). -/

namespace Sys2Proof.Machine

/-! ### The transmit buffer -/

/-- The cells of a byte sequence that begins at address `a`. -/
def Memory.cellsFrom (a : Nat) : List Byte → Memory
  | [] => []
  | v :: vs => (a, v) :: Memory.cellsFrom (a + 1) vs

/-- Every cell stands at the address after its predecessor's, the first at `a`. -/
def Memory.wfFrom (a : Nat) : Memory → Bool
  | [] => true
  | cell :: m => cell.1 == a && Memory.wfFrom (a + 1) m

/-- The canonical form: the addresses are 0, 1, 2, … in order, so equal byte sequences are equal lists (log 13). -/
def Memory.wf (m : Memory) : Bool := Memory.wfFrom 0 m

/-- What an address that is not listed reads as: no byte (R18, `MemRead` is defined only inside the buffer; log 13). -/
def Memory.unlisted : Option Byte := none

/-- `BUF[a]`. -/
def Memory.read (m : Memory) (a : Nat) : Option Byte :=
  match List.lookup a m with
  | some v => some v
  | none => Memory.unlisted

/-- The bytes of the buffer in address order. -/
def Memory.bytes (m : Memory) : List Byte := m.map Prod.snd

/-- `MemWrite(a, n, v)`: an append, defined only for `a = len(BUF)` and within the capacity (R18). -/
def Memory.write (m : Memory) (a : Nat) (vs : List Byte) (capacity : Nat) : Option Memory :=
  if a = m.length ∧ m.length + vs.length ≤ capacity then some (m ++ Memory.cellsFrom a vs) else none

/-- A buffer that holds exactly these bytes. -/
def Memory.ofBytes (vs : List Byte) : Memory := Memory.cellsFrom 0 vs

/-- `SinkWrite(v)`: `SINK <- SINK ++ ⟨v⟩` (R18). -/
def State.sinkWrite (s : State) (v : Byte) : State := { s with sink := s.sink ++ [v] }

/-! ### Accept (R183) -/

/-- The handoff: the word on port `p` becomes CMD and the submission completes, all in one step. -/
def State.accept (s : State) (p : Nat) (w : CmdWord) : State :=
  { s with cmd := w, sidx := 0, buf := [], rd := 0, phase := .synth, req := s.req.set p none }

/-! ### Synthesize (R185) -/

/-- Where the synthesize step stores: sample `n` occupies `BUF[2n]` and `BUF[2n+1]` (R52, R62). -/
def State.appendAddress (s : State) : Nat := 2 * s.sidx

/-- One sample of the Command in CMD is appended; after the last one the block goes to DRAIN. -/
def State.synthesize (s : State) : Host.Outcome State Fault Refusal :=
  match s.command with
  | none => .refused (.reservedWord s.cmd)
  | some c =>
    match s.buf.write s.appendAddress (sampleAt s.cfg c s.sidx).bytes s.cfg.txBytes with
    | none => .fault .appendOutsideBuffer
    | some m =>
      .next { s with
        buf := m, sidx := s.sidx + 1, phase := if s.sidx + 1 = s.cfg.txSamples then .drain else .synth }

/-! ### Drain (R186, R187) -/

/-- The end of the drain: the buffer is emptied and the block can accept again; CMD and SIDX stay (R187). -/
def State.endDrain (s : State) : State := { s with buf := [], rd := 0, phase := .idle }

/-- R63's precondition `RD < TX_BYTES = len(BUF)`. -/
def State.drainable (s : State) : Bool :=
  decide (s.rd < s.cfg.txBytes) && s.buf.length == s.cfg.txBytes

/-- One byte goes to the sink; the last one ends the drain in the same step (R63, R186, R187). -/
def State.drainByte (s : State) : Host.Outcome State Fault Refusal :=
  match s.buf.read s.rd with
  | none => .fault .readOutsideBuffer
  | some v =>
    if s.drainable then
      if s.rd + 1 < s.cfg.txBytes then .next { s.sinkWrite v with rd := s.rd + 1 }
      else .next (s.sinkWrite v).endDrain
    else .fault .readOutsideBuffer

/-! ### Taking the one exception, and the only way out of it -/

/-- Fault entry `raise SinkFault()` (R205). FAULT and PHASE are written, no byte is delivered, nothing is saved. CMD,
SIDX, BUF and RD are unspecified from now on: free values within the ranges R20 gives them, BUF a whole number of
samples long (R36; log 6). -/
def State.raiseSinkFault (s : State) : State :=
  { s with
    fault := .sinkFault
    phase := .halt
    cmd := Config.freeCmd s.freeIx
    sidx := Config.freeSidx s.freeIx % (s.cfg.txSamples + 1)
    rd := Config.freeRd s.freeIx % s.cfg.txBytes
    buf := Memory.ofBytes (((Config.freeBuf s.freeIx).take s.cfg.txSamples).flatMap fun q => [q.1, q.2])
    freeIx := s.freeIx + 1 }

/-- There is no return from the fault (R206); the only way out of HALT is a reset step (R220): the reset state of R38,
with CMD a free value (log 5), a new observation of the sink (R222; log 19), and the pending submissions untouched
(R223). Whether producers that are reset together with the block drop theirs is open (R207, R223); here they keep them.
DESIGN CHOICE, unsafe (log 25). -/
def State.resetStep (s : State) : State :=
  { s with
    phase := .idle
    fault := .none
    cmd := Config.freeCmd s.freeIx
    sidx := 0
    buf := []
    rd := 0
    sink := []
    freeIx := s.freeIx + 1 }

/-- DRAIN: `sink_fail` wins over `out_ready` (R203, R208); a sink that is only slow makes the block wait (R188). -/
def State.drain (s : State) : Host.Outcome State Fault Refusal :=
  if s.sinkFail then .next s.raiseSinkFault
  else if s.outReady then s.drainByte
  else .next s

/-! ### The shared meaning of the 24 Commands -/

/-- One step of the block with the Command of word `w` at the handoff or in transmission (R110, R182). In IDLE it is
accepted from a port that presents it, and while no port does the block waits. In SYNTH and DRAIN the block goes on with
the transmission of CMD: a Command presented then stays pending and changes nothing (R60, R183; log 11). In HALT nothing
moves (R206; log 12). -/
def State.runCommand (s : State) (w : CmdWord) : Host.Outcome State Fault Refusal :=
  match s.phase with
  | .idle =>
    match s.portOf w with
    | some p => .next (s.accept p w)
    | none => .next s
  | .synth => s.synthesize
  | .drain => s.drain
  | .halt => .next s

/-! ### The environment's move between two steps -/

/-- A producer raises a submission on the request slots of a machine with `ports` ports. It can do so only on a port that
exists and has nothing pending; otherwise there is no such move and nothing changes (R35, R196, R226; log 10). No move
clears a slot, at a reset of the block either: producers that are reset together with it are left out (R207, R223).
DESIGN CHOICE, unsafe (log 25). -/
def raiseRequest (ports : Nat) (req : List (Option CmdWord)) (sub : Nat × CmdWord) : List (Option CmdWord) :=
  if sub.1 < ports ∧ (req[sub.1]?).join = none then req.set sub.1 (some sub.2) else req

/-- A submission changes the request slots alone. -/
def State.submit (s : State) (sub : Nat × CmdWord) : State :=
  { s with req := raiseRequest s.cfg.nPorts s.req sub }

/-- The environment's next move: the head of the schedule, or a free value when the schedule is used up (log 2). -/
def State.nextMove (s : State) : EnvMove :=
  match s.env with
  | mv :: _ => mv
  | [] => Config.freeMove s.freeIx

/-- The schedule after that move; a free move advances the counter instead. -/
def State.dropMove (s : State) : State :=
  { s with
    env := s.env.tail
    freeIx := match s.env with
      | _ :: _ => s.freeIx
      | [] => s.freeIx + 1 }

/-- Set the input levels of the coming step. -/
def State.setInputs (s : State) (mv : EnvMove) : State :=
  { s with rst := mv.rst, outReady := mv.outReady, sinkFail := mv.sinkFail, arb := mv.arb }

/-- The environment moves once: input levels, then the submissions raised, in the order of the list. -/
def State.advance (s : State) : State :=
  { s.dropMove.setInputs s.nextMove with
    req := s.nextMove.submits.foldl (raiseRequest s.cfg.nPorts) s.req }

/-- The environment moves after a step that went on. -/
def thenAdvance : Host.Outcome State Fault Refusal → Host.Outcome State Fault Refusal
  | .next s => .next s.advance
  | .fault f => .fault f
  | .refused r => .refused r

/-- The Ingress turns an identifier into a submission on port `p`; a rejected identifier is no submission and leaves all
state unchanged (R85, R89). -/
def State.submitIdentifier (s : State) (p : Nat) (cs : List Char) : State :=
  match ofIdentifier cs with
  | some i => s.submit (p, encode i)
  | none => s

end Sys2Proof.Machine
end

