-- ==== Sys2Proof/Machine/GroupA.lean ====
section
/-! DEFINITION. The six Commands of group A (40_symbol_encoder.md R111 to R116). Each is its command word run by the
shared meaning; the word is the one its own rule gives. -/

namespace Sys2Proof.Machine

/-- `A1+` (R111): command word `0b00001`. -/
def execA1On (s : State) : Host.Outcome State Fault Refusal := s.runCommand 0b00001#5

/-- `A1-` (R112): command word `0b00000`. -/
def execA1Off (s : State) : Host.Outcome State Fault Refusal := s.runCommand 0b00000#5

/-- `A2+` (R113): command word `0b00011`. -/
def execA2On (s : State) : Host.Outcome State Fault Refusal := s.runCommand 0b00011#5

/-- `A2-` (R114): command word `0b00010`. -/
def execA2Off (s : State) : Host.Outcome State Fault Refusal := s.runCommand 0b00010#5

/-- `A3+` (R115): command word `0b00101`. -/
def execA3On (s : State) : Host.Outcome State Fault Refusal := s.runCommand 0b00101#5

/-- `A3-` (R116): command word `0b00100`. -/
def execA3Off (s : State) : Host.Outcome State Fault Refusal := s.runCommand 0b00100#5

end Sys2Proof.Machine
end

