-- ==== Sys2Proof/Machine/GroupB.lean ====
section
/-! DEFINITION. The six Commands of group B (40_symbol_encoder.md R117 to R122). Each is its command word run by the
shared meaning; the word is the one its own rule gives. -/

namespace Sys2Proof.Machine

/-- `B1+` (R117): command word `0b01001`. -/
def execB1On (s : State) : Host.Outcome State Fault Refusal := s.runCommand 0b01001#5

/-- `B1-` (R118): command word `0b01000`. -/
def execB1Off (s : State) : Host.Outcome State Fault Refusal := s.runCommand 0b01000#5

/-- `B2+` (R119): command word `0b01011`. -/
def execB2On (s : State) : Host.Outcome State Fault Refusal := s.runCommand 0b01011#5

/-- `B2-` (R120): command word `0b01010`. -/
def execB2Off (s : State) : Host.Outcome State Fault Refusal := s.runCommand 0b01010#5

/-- `B3+` (R121): command word `0b01101`. -/
def execB3On (s : State) : Host.Outcome State Fault Refusal := s.runCommand 0b01101#5

/-- `B3-` (R122): command word `0b01100`. -/
def execB3Off (s : State) : Host.Outcome State Fault Refusal := s.runCommand 0b01100#5

end Sys2Proof.Machine
end

