-- ==== Sys2Proof/Machine/GroupC.lean ====
section
/-! DEFINITION. The six Commands of group C (40_symbol_encoder.md R123 to R128). Each is its command word run by the
shared meaning; the word is the one its own rule gives. -/

namespace Sys2Proof.Machine

/-- `C1+` (R123): command word `0b10001`. -/
def execC1On (s : State) : Host.Outcome State Fault Refusal := s.runCommand 0b10001#5

/-- `C1-` (R124): command word `0b10000`. -/
def execC1Off (s : State) : Host.Outcome State Fault Refusal := s.runCommand 0b10000#5

/-- `C2+` (R125): command word `0b10011`. -/
def execC2On (s : State) : Host.Outcome State Fault Refusal := s.runCommand 0b10011#5

/-- `C2-` (R126): command word `0b10010`. -/
def execC2Off (s : State) : Host.Outcome State Fault Refusal := s.runCommand 0b10010#5

/-- `C3+` (R127): command word `0b10101`. -/
def execC3On (s : State) : Host.Outcome State Fault Refusal := s.runCommand 0b10101#5

/-- `C3-` (R128): command word `0b10100`. -/
def execC3Off (s : State) : Host.Outcome State Fault Refusal := s.runCommand 0b10100#5

end Sys2Proof.Machine
end

