-- ==== Sys2Proof/Machine/GroupD.lean ====
section
/-! DEFINITION. The six Commands of group D (40_symbol_encoder.md R129 to R134). Each is its command word run by the
shared meaning; the word is the one its own rule gives. -/

namespace Sys2Proof.Machine

/-- `D1+` (R129): command word `0b11001`. -/
def execD1On (s : State) : Host.Outcome State Fault Refusal := s.runCommand 0b11001#5

/-- `D1-` (R130): command word `0b11000`. -/
def execD1Off (s : State) : Host.Outcome State Fault Refusal := s.runCommand 0b11000#5

/-- `D2+` (R131): command word `0b11011`. -/
def execD2On (s : State) : Host.Outcome State Fault Refusal := s.runCommand 0b11011#5

/-- `D2-` (R132): command word `0b11010`. -/
def execD2Off (s : State) : Host.Outcome State Fault Refusal := s.runCommand 0b11010#5

/-- `D3+` (R133): command word `0b11101`. -/
def execD3On (s : State) : Host.Outcome State Fault Refusal := s.runCommand 0b11101#5

/-- `D3-` (R134): command word `0b11100`. -/
def execD3Off (s : State) : Host.Outcome State Fault Refusal := s.runCommand 0b11100#5

end Sys2Proof.Machine
end

