-- ==== Sys2Proof/Machine/Dispatch.lean ====
section
/-! DEFINITION. One arm per Command, in the order of spec/opcode_table.json. -/

namespace Sys2Proof.Machine

def exec (i : Instr) (s : State) : Host.Outcome State Fault Refusal :=
  match i with
  | .a1On => Sys2Proof.Machine.execA1On s
  | .a1Off => Sys2Proof.Machine.execA1Off s
  | .a2On => Sys2Proof.Machine.execA2On s
  | .a2Off => Sys2Proof.Machine.execA2Off s
  | .a3On => Sys2Proof.Machine.execA3On s
  | .a3Off => Sys2Proof.Machine.execA3Off s
  | .b1On => Sys2Proof.Machine.execB1On s
  | .b1Off => Sys2Proof.Machine.execB1Off s
  | .b2On => Sys2Proof.Machine.execB2On s
  | .b2Off => Sys2Proof.Machine.execB2Off s
  | .b3On => Sys2Proof.Machine.execB3On s
  | .b3Off => Sys2Proof.Machine.execB3Off s
  | .c1On => Sys2Proof.Machine.execC1On s
  | .c1Off => Sys2Proof.Machine.execC1Off s
  | .c2On => Sys2Proof.Machine.execC2On s
  | .c2Off => Sys2Proof.Machine.execC2Off s
  | .c3On => Sys2Proof.Machine.execC3On s
  | .c3Off => Sys2Proof.Machine.execC3Off s
  | .d1On => Sys2Proof.Machine.execD1On s
  | .d1Off => Sys2Proof.Machine.execD1Off s
  | .d2On => Sys2Proof.Machine.execD2On s
  | .d2Off => Sys2Proof.Machine.execD2Off s
  | .d3On => Sys2Proof.Machine.execD3On s
  | .d3Off => Sys2Proof.Machine.execD3Off s

end Sys2Proof.Machine
end

