-- ==== Sys2Proof/Machine/Flags.lean ====
section
/-! DEFINITION. The block has no flags, condition codes or predicates (R26). What it shows of its state are its output
ports (R31): the status port with the codes of PHASE and FAULT, `out_valid`, `out_data` and `req_ready`. -/

namespace Sys2Proof.Machine

/-- The codes of PHASE (R25). -/
def Phase.code : Phase → BitVec 2
  | .idle => 0#2
  | .synth => 1#2
  | .drain => 2#2
  | .halt => 3#2

/-- The codes of FAULT (R28, R202). -/
def Cause.code : Cause → BitVec 2
  | .none => 0#2
  | .sinkFault => 1#2

/-- Output `phase` (R31). -/
def State.phasePort (s : State) : BitVec 2 := s.phase.code

/-- Output `fault` (R31). -/
def State.faultPort (s : State) : BitVec 2 := s.fault.code

/-- Output `out_valid`: `PHASE = DRAIN`, and 0 in a reset step (R31, R220). -/
def State.outValid (s : State) : Bool := !s.rst && s.phase == .drain

/-- Output `out_data`: `BUF[RD]` while `out_valid = 1` (R31). Otherwise it may be any byte at each step (V2): a free value
of the counter and the length of the remaining schedule. Each step raises the first or shortens the second, so no two
steps of a run share their value by definition. DESIGN CHOICE, unsafe across runs (log 7): two states that agree in both
numbers show the same free byte. -/
def State.outData (s : State) : Byte :=
  if s.outValid then
    match s.buf.read s.rd with
    | some v => v
    | none => Config.freeOutData s.freeIx s.env.length
  else Config.freeOutData s.freeIx s.env.length

/-- Output `req_ready[p]`: 1 in exactly the step that accepts port `p`'s Command (R31, R183, R220). -/
def State.reqReady (s : State) (p : Nat) : Bool :=
  !s.rst && s.phase == .idle && s.granted == some p

end Sys2Proof.Machine
end

