-- ==== Sys2Proof/Machine/Step.lean ====
section
/-! DEFINITION. One step (R182): a configuration outside R12 is refused; a reset step wins over everything (R208, R220);
otherwise the command word of the step is fetched, decoded and run, and where there is none the block waits (R188). After
a step that went on the environment moves once (log 1). -/

namespace Sys2Proof.Machine

/-- One step of the machine. A wait is a step in which only the environment moves (R188; log 12). -/
def step (s : State) : Host.Outcome State Fault Refusal :=
  if s.cfg.wf then
    if s.rst then thenAdvance (.next s.resetStep)
    else
      match s.fetch with
      | none => thenAdvance (.next s)
      | some w =>
        match decode w with
        | none => .refused (.reservedWord w)
        | some i => thenAdvance (exec i s)
  else .refused .illegalConfig

/-- `s` with the word `w` presented so that the very next step takes it: the block in IDLE as R36 describes it, no reset,
the word pending on port 0, nothing pending elsewhere, and the arbiter beginning at port 0. It stands for a producer's
submission to an idle block (log 17). -/
def State.withFetchWord (s : State) (_nbits w : Nat) : State :=
  { s with
    phase := .idle
    fault := .none
    buf := []
    rd := 0
    rst := false
    arb := 0
    req := (List.replicate s.cfg.nPorts none).set 0 (some (BitVec.ofNat 5 w)) }

end Sys2Proof.Machine
end

