-- ==== Sys2Proof/Safety.lean ====
section
/-! DEFINITION. What claims about the machine are stated in: the state invariant of R36, the shape of the sink stream
(R57), waiting and final states (R188, R195), and what a run accepts and still owes the sink (R190, R191). -/

namespace Sys2Proof.Machine

/-! ### The invariant (R36) -/

/-- The row of R36's table for the present phase. In HALT the elements are unspecified. -/
def State.PhaseInv (s : State) : Prop :=
  match s.phase with
  | .idle => s.buf = [] ∧ s.rd = 0
  | .synth =>
    s.sidx < s.cfg.txSamples ∧ s.rd = 0 ∧
      ∃ c, s.command = some c ∧ s.buf.bytes = bytesOf ((txs s.cfg c).take s.sidx)
  | .drain =>
    s.sidx = s.cfg.txSamples ∧ ∃ c, s.command = some c ∧ s.buf.bytes = tx s.cfg c
  | .halt => True

/-- What holds in every reachable state: a legal configuration (R12), BUF in canonical form, within its capacity and a
whole number of samples long (R32, R36), SIDX and RD in their ranges (R24, R33), one request slot a port (R35),
`FAULT = 1` exactly in HALT (R28), and the phase's own row of R36. -/
structure State.Inv (s : State) : Prop where
  config   : s.cfg.wf = true
  bufWf    : s.buf.wf = true
  bufEven  : s.buf.length % 2 = 0
  bufCap   : s.buf.length ≤ s.cfg.txBytes
  sidxMax  : s.sidx ≤ s.cfg.txSamples
  rdMax    : s.rd < s.cfg.txBytes
  ports    : s.req.length = s.cfg.nPorts
  faultHalt : s.fault = .sinkFault ↔ s.phase = .halt
  phaseInv : s.PhaseInv

/-! ### The sink stream (R57) -/

/-- The transmissions of a sequence of Commands, one after the other. -/
def transmissions (cfg : Config) (cs : List Command) : List Byte := cs.flatMap (tx cfg)

/-- R57 (3): since reset the sink has received whole transmissions, one after the other, and in DRAIN a prefix of the
present one, in HALT a proper prefix of the one that was cut (R205). -/
def State.SinkShape (s : State) : Prop :=
  ∃ past : List Command,
    match s.phase with
    | .idle => s.sink = transmissions s.cfg past
    | .synth => s.sink = transmissions s.cfg past
    | .drain => ∃ c, s.command = some c ∧ s.sink = transmissions s.cfg past ++ (tx s.cfg c).take s.rd
    | .halt => ∃ c n, n < s.cfg.txBytes ∧ s.sink = transmissions s.cfg past ++ (tx s.cfg c).take n

/-! ### Waiting and final states -/

/-- The block waits (R188): idle with nothing pending, draining into a sink that is only slow, or halted. -/
def State.Waiting (s : State) : Prop :=
  (s.phase = .idle ∧ ∀ p, p < s.cfg.nPorts → s.reqAt p = none) ∨
    (s.phase = .drain ∧ s.outReady = false ∧ s.sinkFail = false) ∨ s.phase = .halt

/-- A run is over (R195): idle, no fault, an empty buffer and nothing pending. -/
def State.Final (s : State) : Prop :=
  s.phase = .idle ∧ s.fault = .none ∧ s.buf = [] ∧ ∀ p, p < s.cfg.nPorts → s.reqAt p = none

/-! ### Runs -/

/-- `k` steps of the machine, stopping at the first fault or refusal. -/
def run : Nat → State → Host.Outcome State Fault Refusal
  | 0, s => .next s
  | k + 1, s =>
    match step s with
    | .next t => run k t
    | .fault f => .fault f
    | .refused r => .refused r

/-- The Command this step accepts, if it accepts one (R183): none in a reset step or outside IDLE. -/
def State.acceptsNow (s : State) : List Command :=
  if s.rst then []
  else
    match s.phase with
    | .idle =>
      match s.granted with
      | some p =>
        match s.reqAt p with
        | some w => (decodeCommand w).toList
        | none => []
      | none => []
    | .synth => []
    | .drain => []
    | .halt => []

/-- The Commands accepted in the next `k` steps, in the order of their accept steps. -/
def acceptedIn : Nat → State → List Command
  | 0, _ => []
  | k + 1, s =>
    match step s with
    | .next t => s.acceptsNow ++ acceptedIn k t
    | .fault _ => []
    | .refused _ => []

/-- None of the next `k` steps is a reset step. -/
def noResetIn : Nat → State → Prop
  | 0, _ => True
  | k + 1, s =>
    s.rst = false ∧
      match step s with
      | .next t => noResetIn k t
      | .fault _ => True
      | .refused _ => True

/-- The bytes of the Command in transmission that the sink has not received yet. -/
def State.owed (s : State) : List Byte :=
  match s.phase, s.command with
  | .synth, some c => tx s.cfg c
  | .drain, some c => (tx s.cfg c).drop s.rd
  | _, _ => []

/-- The maximal runs of a sample sequence, each with its length (R173). -/
def runLengths : List Sample → List (Sample × Nat)
  | [] => []
  | x :: xs =>
    match runLengths xs with
    | [] => [(x, 1)]
    | (y, n) :: rest => if x = y then (y, n + 1) :: rest else (x, 1) :: (y, n) :: rest

/-- A move of the environment without reset in which the sink takes a byte. -/
def ReadyMove (mv : EnvMove) : Prop := mv.rst = false ∧ mv.outReady = true ∧ mv.sinkFail = false

end Sys2Proof.Machine
end

