-- ==== Sys2Proof/Certificates/Slice0/Obligations.lean ====
section
/-! DEFINITION. The statements for the provers. Each docstring names the rules of spec/ it formalises; a statement that
also rests on a choice of the model says so and names the log entry. -/

open Sys2Proof Sys2Proof.Machine

/-! ### Encoding -/

/-- All 24 legal words decode to their Commands and the eight reserved words to none (R75, R77's list of words). -/
def Obligations.OpcodeMapAsListed : Prop :=
  decode 0b00001#5 = some .a1On ∧ decode 0b00000#5 = some .a1Off ∧
  decode 0b00011#5 = some .a2On ∧ decode 0b00010#5 = some .a2Off ∧
  decode 0b00101#5 = some .a3On ∧ decode 0b00100#5 = some .a3Off ∧
  decode 0b01001#5 = some .b1On ∧ decode 0b01000#5 = some .b1Off ∧
  decode 0b01011#5 = some .b2On ∧ decode 0b01010#5 = some .b2Off ∧
  decode 0b01101#5 = some .b3On ∧ decode 0b01100#5 = some .b3Off ∧
  decode 0b10001#5 = some .c1On ∧ decode 0b10000#5 = some .c1Off ∧
  decode 0b10011#5 = some .c2On ∧ decode 0b10010#5 = some .c2Off ∧
  decode 0b10101#5 = some .c3On ∧ decode 0b10100#5 = some .c3Off ∧
  decode 0b11001#5 = some .d1On ∧ decode 0b11000#5 = some .d1Off ∧
  decode 0b11011#5 = some .d2On ∧ decode 0b11010#5 = some .d2Off ∧
  decode 0b11101#5 = some .d3On ∧ decode 0b11100#5 = some .d3Off ∧
  decode 0b00110#5 = none ∧ decode 0b00111#5 = none ∧
  decode 0b01110#5 = none ∧ decode 0b01111#5 = none ∧
  decode 0b10110#5 = none ∧ decode 0b10111#5 = none ∧
  decode 0b11110#5 = none ∧ decode 0b11111#5 = none

/-- Decoding is the three slices, a word is legal exactly when its address field is not 3, and the word's value is
`8 * group + 2 * address + state` (R70 to R74, R76). -/
def Obligations.DecodingIsTheThreeSlices : Prop :=
  ∀ w : CmdWord,
    (decode w = none ↔ w.extractLsb' 1 2 = 3#2) ∧
      ∀ i, decode w = some i →
        (w.extractLsb' 3 2).toNat = i.command.group.ordinal ∧
          (w.extractLsb' 1 2).toNat = i.command.address.ordinal ∧
          (w.extractLsb' 0 1).toNat = i.command.state.toNat ∧
          w.toNat = 8 * i.command.group.ordinal + 2 * i.command.address.ordinal + i.command.state.toNat

/-- Decode and encode agree: the word of every instruction decodes to it, and each valid identifier names one word and
each legal word has one identifier (R75, R85 to R89). Two clauses hold by the model's choice: that a table number of 32 or
more is rejected and its width makes no difference (log 15), and that a spelling in lower case is no identifier, which R86
leaves open (log 21). -/
def Obligations.DecodeEncodeAgree : Prop :=
  (∀ i, decode (encode i) = some i) ∧
    (∀ nbits w i, decodeTableWord nbits w = some i ↔ w = (encode i).toNat) ∧
    ∀ cs i, ofIdentifier cs = some i ↔ cs = i.identifier

/-- A rejected identifier leaves all state unchanged, and a valid one submits the word of its Command (R85 to R89). -/
def Obligations.RejectedIdentifierChangesNothing : Prop :=
  ofIdentifier ['E', '1', '+'] = none ∧
    ∀ (s : State) p cs,
      (ofIdentifier cs = none → s.submitIdentifier p cs = s) ∧
        ∀ i, cs = Instr.identifier i → s.submitIdentifier p cs = s.submit (p, encode i)

/-! ### Symbol Encoder -/

/-- The closed form of a BitString, bit by bit (R106), and its length (R104). -/
def Obligations.BitStringClosedForm : Prop :=
  ∀ c : Command,
    (bitString c).length = 24 ∧
      (∀ j, j < 4 → (bitString c)[2 * j]? = some false ∧
        (bitString c)[2 * j + 1]? = some (decide (j ≠ c.group.ordinal))) ∧
      (∀ j, 4 ≤ j → j < 7 → (bitString c)[2 * j]? = some false ∧
        (bitString c)[2 * j + 1]? = some (decide (j - 4 ≠ c.address.ordinal))) ∧
      (∀ j, 7 ≤ j → j < 11 → (bitString c)[2 * j]? = some false ∧ (bitString c)[2 * j + 1]? = some true) ∧
      (bitString c)[22]? = some c.state ∧ (bitString c)[23]? = some c.state

/-- Every BitString has 24 bits, exactly one mark `00` among the group slots, exactly one among the address slots, pads
`01` in all padding slots and its state symbol at the end; a reserved word has no BitString (R107). -/
def Obligations.BitStringHasOneMarkPerField : Prop :=
  (∀ c : Command,
    let symbolAt := fun j => ((bitString c)[2 * j]?, (bitString c)[2 * j + 1]?)
    (bitString c).length = 24 ∧
      ((List.range 4).countP fun j => symbolAt j == (some false, some false)) = 1 ∧
      ((List.range 3).countP fun j => symbolAt (4 + j) == (some false, some false)) = 1 ∧
      (∀ j, j < 4 → symbolAt (7 + j) = (some false, some true)) ∧
      symbolAt 11 = if c.state then (some true, some true) else (some false, some false)) ∧
  ∀ w : CmdWord, decode w = none → bitStringOfWord w = none

/-- The 24 BitStrings are pairwise distinct, two of them differ in exactly the bits R136 names, and the number of those
bits is 2, 4 or 6 unless they are equal. -/
def Obligations.BitStringsDifferWhereNamed : Prop :=
  ∀ c d : Command,
    (bitString c = bitString d → c = d) ∧
      (c ≠ d → (List.range 24).countP (fun k => decide ((bitString c)[k]? ≠ (bitString d)[k]?)) ∈ [2, 4, 6]) ∧
      ∀ k, k < 24 →
        ((bitString c)[k]? ≠ (bitString d)[k]? ↔
          (c.group ≠ d.group ∧ (k = 2 * c.group.ordinal + 1 ∨ k = 2 * d.group.ordinal + 1)) ∨
            (c.address ≠ d.address ∧ (k = 9 + 2 * c.address.ordinal ∨ k = 9 + 2 * d.address.ordinal)) ∨
            (c.state ≠ d.state ∧ (k = 22 ∨ k = 23)))

/-- What one of the rules R111 to R134 says of its Command: its word, its BitString (as bits and as the number with
`b[0]` most significant), the places of its marks, its bit counts, that accepting it writes CMD and no flag or exception,
and the count of full-amplitude samples in the reference configuration for every flush length. -/
def CommandRule (i : Instr) (w : CmdWord) (bits : List Nat) (asNumber group address ones zeros full : Nat) : Prop :=
  encode i = w ∧ decode w = some i ∧ i.command.group.ordinal = group ∧ i.command.address.ordinal = address ∧
    (bitString i.command).map Bool.toNat = bits ∧ bitsToNat (bitString i.command) = asNumber ∧
    (∀ j, j < 4 → (bits[2 * j]?, bits[2 * j + 1]?) = if j = group then (some 0, some 0) else (some 0, some 1)) ∧
    (∀ j, j < 3 → (bits[8 + 2 * j]?, bits[9 + 2 * j]?) = if j = address then (some 0, some 0) else (some 0, some 1)) ∧
    (∀ j, j < 4 → (bits[14 + 2 * j]?, bits[15 + 2 * j]?) = (some 0, some 1)) ∧
    (bits[22]?, bits[23]?) = (if i.command.state then (some 1, some 1) else (some 0, some 0)) ∧
    bits.count 1 = ones ∧ bits.count 0 = zeros ∧
    (∀ (s : State) p, s.phase = .idle → p < s.cfg.nPorts → s.reqAt p = some w →
      ∃ t, exec i s = .next t ∧ t.cmd = w ∧ t.bits = some (bitString i.command) ∧ t.phase = .synth ∧
        t.fault = s.fault) ∧
    ∀ flush ports,
      (txs ⟨150000, 751, flush, ports⟩ i.command).length = 36116 + 2 * flush ∧
        (txs ⟨150000, 751, flush, ports⟩ i.command).count .full = full

/-- The six Commands of group A, each as its rule gives it (R111 to R116). -/
def Obligations.GroupACommandsAsListed : Prop :=
  CommandRule .a1On 0b00001#5 [0, 0, 0, 1, 0, 1, 0, 1, 0, 0, 0, 1, 0, 1, 0, 1, 0, 1, 0, 1, 0, 1, 1, 1] 0x151557 0 0 11 13 14137 ∧
  CommandRule .a1Off 0b00000#5 [0, 0, 0, 1, 0, 1, 0, 1, 0, 0, 0, 1, 0, 1, 0, 1, 0, 1, 0, 1, 0, 1, 0, 0] 0x151554 0 0 9 15 13165 ∧
  CommandRule .a2On 0b00011#5 [0, 0, 0, 1, 0, 1, 0, 1, 0, 1, 0, 0, 0, 1, 0, 1, 0, 1, 0, 1, 0, 1, 1, 1] 0x154557 0 1 11 13 14137 ∧
  CommandRule .a2Off 0b00010#5 [0, 0, 0, 1, 0, 1, 0, 1, 0, 1, 0, 0, 0, 1, 0, 1, 0, 1, 0, 1, 0, 1, 0, 0] 0x154554 0 1 9 15 13165 ∧
  CommandRule .a3On 0b00101#5 [0, 0, 0, 1, 0, 1, 0, 1, 0, 1, 0, 1, 0, 0, 0, 1, 0, 1, 0, 1, 0, 1, 1, 1] 0x155157 0 2 11 13 14137 ∧
  CommandRule .a3Off 0b00100#5 [0, 0, 0, 1, 0, 1, 0, 1, 0, 1, 0, 1, 0, 0, 0, 1, 0, 1, 0, 1, 0, 1, 0, 0] 0x155154 0 2 9 15 13165

/-- The six Commands of group B, each as its rule gives it (R117 to R122). -/
def Obligations.GroupBCommandsAsListed : Prop :=
  CommandRule .b1On 0b01001#5 [0, 1, 0, 0, 0, 1, 0, 1, 0, 0, 0, 1, 0, 1, 0, 1, 0, 1, 0, 1, 0, 1, 1, 1] 0x451557 1 0 11 13 14137 ∧
  CommandRule .b1Off 0b01000#5 [0, 1, 0, 0, 0, 1, 0, 1, 0, 0, 0, 1, 0, 1, 0, 1, 0, 1, 0, 1, 0, 1, 0, 0] 0x451554 1 0 9 15 13165 ∧
  CommandRule .b2On 0b01011#5 [0, 1, 0, 0, 0, 1, 0, 1, 0, 1, 0, 0, 0, 1, 0, 1, 0, 1, 0, 1, 0, 1, 1, 1] 0x454557 1 1 11 13 14137 ∧
  CommandRule .b2Off 0b01010#5 [0, 1, 0, 0, 0, 1, 0, 1, 0, 1, 0, 0, 0, 1, 0, 1, 0, 1, 0, 1, 0, 1, 0, 0] 0x454554 1 1 9 15 13165 ∧
  CommandRule .b3On 0b01101#5 [0, 1, 0, 0, 0, 1, 0, 1, 0, 1, 0, 1, 0, 0, 0, 1, 0, 1, 0, 1, 0, 1, 1, 1] 0x455157 1 2 11 13 14137 ∧
  CommandRule .b3Off 0b01100#5 [0, 1, 0, 0, 0, 1, 0, 1, 0, 1, 0, 1, 0, 0, 0, 1, 0, 1, 0, 1, 0, 1, 0, 0] 0x455154 1 2 9 15 13165

/-- The six Commands of group C, each as its rule gives it (R123 to R128). -/
def Obligations.GroupCCommandsAsListed : Prop :=
  CommandRule .c1On 0b10001#5 [0, 1, 0, 1, 0, 0, 0, 1, 0, 0, 0, 1, 0, 1, 0, 1, 0, 1, 0, 1, 0, 1, 1, 1] 0x511557 2 0 11 13 14137 ∧
  CommandRule .c1Off 0b10000#5 [0, 1, 0, 1, 0, 0, 0, 1, 0, 0, 0, 1, 0, 1, 0, 1, 0, 1, 0, 1, 0, 1, 0, 0] 0x511554 2 0 9 15 13165 ∧
  CommandRule .c2On 0b10011#5 [0, 1, 0, 1, 0, 0, 0, 1, 0, 1, 0, 0, 0, 1, 0, 1, 0, 1, 0, 1, 0, 1, 1, 1] 0x514557 2 1 11 13 14137 ∧
  CommandRule .c2Off 0b10010#5 [0, 1, 0, 1, 0, 0, 0, 1, 0, 1, 0, 0, 0, 1, 0, 1, 0, 1, 0, 1, 0, 1, 0, 0] 0x514554 2 1 9 15 13165 ∧
  CommandRule .c3On 0b10101#5 [0, 1, 0, 1, 0, 0, 0, 1, 0, 1, 0, 1, 0, 0, 0, 1, 0, 1, 0, 1, 0, 1, 1, 1] 0x515157 2 2 11 13 14137 ∧
  CommandRule .c3Off 0b10100#5 [0, 1, 0, 1, 0, 0, 0, 1, 0, 1, 0, 1, 0, 0, 0, 1, 0, 1, 0, 1, 0, 1, 0, 0] 0x515154 2 2 9 15 13165

/-- The six Commands of group D, each as its rule gives it (R129 to R134). -/
def Obligations.GroupDCommandsAsListed : Prop :=
  CommandRule .d1On 0b11001#5 [0, 1, 0, 1, 0, 1, 0, 0, 0, 0, 0, 1, 0, 1, 0, 1, 0, 1, 0, 1, 0, 1, 1, 1] 0x541557 3 0 11 13 14137 ∧
  CommandRule .d1Off 0b11000#5 [0, 1, 0, 1, 0, 1, 0, 0, 0, 0, 0, 1, 0, 1, 0, 1, 0, 1, 0, 1, 0, 1, 0, 0] 0x541554 3 0 9 15 13165 ∧
  CommandRule .d2On 0b11011#5 [0, 1, 0, 1, 0, 1, 0, 0, 0, 1, 0, 0, 0, 1, 0, 1, 0, 1, 0, 1, 0, 1, 1, 1] 0x544557 3 1 11 13 14137 ∧
  CommandRule .d2Off 0b11010#5 [0, 1, 0, 1, 0, 1, 0, 0, 0, 1, 0, 0, 0, 1, 0, 1, 0, 1, 0, 1, 0, 1, 0, 0] 0x544554 3 1 9 15 13165 ∧
  CommandRule .d3On 0b11101#5 [0, 1, 0, 1, 0, 1, 0, 0, 0, 1, 0, 1, 0, 0, 0, 1, 0, 1, 0, 1, 0, 1, 1, 1] 0x545157 3 2 11 13 14137 ∧
  CommandRule .d3Off 0b11100#5 [0, 1, 0, 1, 0, 1, 0, 0, 0, 1, 0, 1, 0, 0, 0, 1, 0, 1, 0, 1, 0, 1, 0, 0] 0x545154 3 2 9 15 13165

/-! ### Pulse-Width Modulator -/

/-- The derived constants: their definitions in every configuration, and their values in the reference configuration for
every flush length, where 70% of SYMLEN would be 139 (R13). -/
def Obligations.ReferenceConstants : Prop :=
  (∀ c : Config,
    c.symLen = c.sampleRate / c.bitRate ∧ c.short = c.symLen * 3 / 10 ∧ c.long = c.symLen - c.short ∧
      c.blankLen = c.symLen * 13 / 2 ∧ c.bodyLen = 24 * c.symLen ∧ c.repStride = c.bodyLen + c.symLen + c.blankLen ∧
      c.txSamples = 2 * c.flushLen + 6 * c.bodyLen + 5 * (c.symLen + c.blankLen) ∧ c.txBytes = 2 * c.txSamples) ∧
  ∀ flush ports,
    let c : Config := ⟨150000, 751, flush, ports⟩
    c.symLen = 199 ∧ c.short = 59 ∧ c.long = 140 ∧ c.blankLen = 1293 ∧ c.bodyLen = 4776 ∧ c.repStride = 6268 ∧
      c.txSamples = 36116 + 2 * flush ∧ c.txBytes = 72232 + 4 * flush ∧ c.symLen * 7 / 10 = 139

/-- In every legal configuration each bit has a non-empty pulse and a non-empty pause that together fill the symbol slot,
and a 1 bit's pulse is strictly longer than a 0 bit's (R142, R146). -/
def Obligations.PulseAndPauseFillTheSlot : Prop :=
  ∀ c : Config, c.wf = true →
    4 ≤ c.symLen ∧ 1 ≤ c.short ∧ 3 ≤ c.long ∧ c.pulseLength false < c.pulseLength true ∧
      ∀ v, c.pulseLength v + c.pauseLength v = c.symLen ∧ 1 ≤ c.pulseLength v ∧ 1 ≤ c.pauseLength v

/-- One bit is exactly SYMLEN samples, the pulse first, and `bitsample` is its sample-indexed form (R145). -/
def Obligations.BitSamplesMatchBitSample : Prop :=
  ∀ (c : Config) v,
    bitSamples c v = fullRun (c.pulseLength v) ++ zeroRun (c.pauseLength v) ∧
      (bitSamples c v).length = c.symLen ∧
      ∀ t, t < c.symLen →
        (bitSamples c v)[t]? = some (bitSampleAt c v t) ∧
          bitSampleAt c v t = if t < c.pulseLength v then .full else .zero

/-- The body of a BitString is its bits in order, in closed form (R148). -/
def Obligations.BodyClosedForm : Prop :=
  ∀ (c : Config) (bs : List Bool), c.wf = true → bs.length = 24 →
    (body c bs).length = 24 * c.symLen ∧
      ∀ t, t < c.bodyLen →
        (body c bs)[t]? = (bs[t / c.symLen]?).map fun v => bitSampleAt c v (t % c.symLen)

/-- A body is exactly 24 pulses and 24 pauses alternating, and has `ones * LONG + zeros * SHORT` full-amplitude samples
(R149). -/
def Obligations.BodyAlternatesPulsesAndPauses : Prop :=
  ∀ (c : Config) (bs : List Bool), c.wf = true → bs.length = 24 →
    runLengths (body c bs) = (bs.flatMap fun v => [(.full, c.pulseLength v), (.zero, c.pauseLength v)]) ∧
      (runLengths (body c bs)).length = 48 ∧
      (body c bs).count .full = bs.count true * c.long + bs.count false * c.short

/-! ### Framing Engine -/

/-- The closed form the synthesize step evaluates is the sample sequence the framing algorithm builds (R167). -/
def Obligations.SampleIsTransmissionElement : Prop :=
  ∀ (c : Config) (cmd : Command) n, c.wf = true → n < c.txSamples → (txs c cmd)[n]? = some (sampleAt c cmd n)

/-- Every transmission has exactly TX_SAMPLES samples and TX_BYTES bytes, the same for all Commands, with the values in
the reference configuration (R171). -/
def Obligations.TransmissionLength : Prop :=
  (∀ (cmd : Command) flush ports,
    (txs ⟨150000, 751, flush, ports⟩ cmd).length = 36116 + 2 * flush ∧
      (tx ⟨150000, 751, flush, ports⟩ cmd).length = 72232 + 4 * flush) ∧
  ∀ (c : Config) (cmd : Command),
    (txs c cmd).length = 2 * c.flushLen + 6 * c.bodyLen + 5 * (c.symLen + c.blankLen) ∧
      (txs c cmd).length = c.txSamples ∧ (tx c cmd).length = c.txBytes ∧ c.txBytes = 2 * c.txSamples

/-- The segment map: where each flush run, body, bit, continuation bit and blank gap lies (R166). -/
def Obligations.SegmentMap : Prop :=
  ∀ (c : Config) (cmd : Command),
    (txs c cmd).take c.flushLen = zeroRun c.flushLen ∧
      (∀ r, r < 6 →
        ((txs c cmd).drop (c.flushLen + r * c.repStride)).take c.bodyLen = body c (bitString cmd)) ∧
      (∀ r k v, r < 6 → (bitString cmd)[k]? = some v →
        ((txs c cmd).drop (c.flushLen + r * c.repStride + k * c.symLen)).take c.symLen = bitSamples c v) ∧
      (∀ r, r < 5 →
        ((txs c cmd).drop (c.flushLen + r * c.repStride + c.bodyLen)).take c.symLen = bitSamples c false) ∧
      (∀ r, r < 5 →
        ((txs c cmd).drop (c.flushLen + r * c.repStride + c.bodyLen + c.symLen)).take c.blankLen
          = zeroRun c.blankLen ∧
        c.flushLen + r * c.repStride + c.bodyLen + c.symLen + c.blankLen = c.flushLen + (r + 1) * c.repStride) ∧
      (txs c cmd).drop (c.flushLen + 5 * c.repStride + c.bodyLen) = zeroRun c.flushLen

/-- The count of full-amplitude samples of a transmission, that its bytes equal to 255 are as many and all others are
127, and the counts in the reference configuration (R172). -/
def Obligations.FullAmplitudeCount : Prop :=
  (∀ (cmd : Command) flush ports,
    (txs ⟨150000, 751, flush, ports⟩ cmd).count .full = if cmd.state then 14137 else 13165) ∧
  ∀ (c : Config) (cmd : Command),
    let bs := bitString cmd
    let full := 6 * (bs.count true * c.long + bs.count false * c.short) + 5 * c.short
    (txs c cmd).count .full = full ∧ (tx c cmd).count 255#8 = full ∧ ∀ v, v ∈ tx c cmd → v = 255#8 ∨ v = 127#8

/-- The maximal runs of a transmission: 299 of them, 149 pulses, with the lengths R173 gives. -/
def Obligations.TransmissionRunStructure : Prop :=
  ∀ (c : Config) (cmd : Command), c.wf = true →
    let runsOfBody := (bitString cmd).flatMap fun v => [(Sample.full, c.pulseLength v), (Sample.zero, c.pauseLength v)]
    let untilNext := runsOfBody ++ [(Sample.full, c.short), (Sample.zero, c.long + c.blankLen)]
    runLengths (txs c cmd) =
        [(Sample.zero, c.flushLen)] ++ (List.replicate 5 untilNext).flatten ++ runsOfBody.dropLast
          ++ [(Sample.zero, c.pauseLength cmd.state + c.flushLen)] ∧
      (runLengths (txs c cmd)).length = 299 ∧
      ((runLengths (txs c cmd)).filter fun q => decide (q.1 = Sample.full)).length = 149

/-- Byte layout: sample `n` is bytes `2n` (I: 255 exactly for a full-amplitude sample, else 127) and `2n + 1` (Q: 127),
by the closed form of the sample (R52, R55). -/
def Obligations.ByteLayout : Prop :=
  ∀ (c : Config) (cmd : Command) n, c.wf = true → n < c.txSamples →
    (tx c cmd)[2 * n]? = some (if sampleAt c cmd n = .full then 255#8 else 127#8) ∧
      (tx c cmd)[2 * n + 1]? = some 127#8

/-! ### Operations of one Command -/

/-- Accept (R183): in IDLE, with the Command's word pending on some port, the Command is taken from a port that presents
it: CMD, SIDX, BUF, RD and PHASE are written, that port's submission completes, and everything else keeps its value. -/
def Obligations.AcceptLatchesTheCommand : Prop :=
  ∀ i (s : State) q, s.phase = .idle → q < s.cfg.nPorts → s.reqAt q = some (encode i) →
    ∃ p, p < s.cfg.nPorts ∧ s.reqAt p = some (encode i) ∧
      exec i s = .next { s with
        cmd := encode i, sidx := 0, buf := [], rd := 0, phase := .synth, req := s.req.set p none }

/-- Synthesize (R185, R62): with the Command in transmission, one sample is appended at `len(BUF)`, SIDX counts up, and
the last sample takes the block to DRAIN. -/
def Obligations.SynthesizeAppendsOneSample : Prop :=
  ∀ i (s : State), s.phase = .synth → s.cmd = encode i → s.buf.length = 2 * s.sidx → s.sidx < s.cfg.txSamples →
    exec i s = .next { s with
      buf := s.buf ++ [(2 * s.sidx, if sampleAt s.cfg i.command s.sidx = .full then 255#8 else 127#8),
        (2 * s.sidx + 1, 127#8)]
      sidx := s.sidx + 1
      phase := if s.sidx + 1 = s.cfg.txSamples then .drain else .synth }

/-- Drain (R186, R63): a byte that is not the last goes to the sink and RD counts up. -/
def Obligations.DrainDeliversOneByte : Prop :=
  ∀ i (s : State) v, s.phase = .drain → s.outReady = true → s.sinkFail = false → s.buf.length = s.cfg.txBytes →
    s.buf.read s.rd = some v → s.rd + 1 < s.cfg.txBytes →
    exec i s = .next { s with sink := s.sink ++ [v], rd := s.rd + 1 }

/-- End of drain (R187): the last byte goes to the sink, the buffer is emptied and the block is idle; CMD and SIDX keep
their values. -/
def Obligations.LastByteEndsTheDrain : Prop :=
  ∀ i (s : State) v, s.phase = .drain → s.outReady = true → s.sinkFail = false → s.buf.length = s.cfg.txBytes →
    s.buf.read s.rd = some v → s.rd + 1 = s.cfg.txBytes →
    exec i s = .next { s with sink := s.sink ++ [v], buf := [], rd := 0, phase := .idle }

/-- In a reachable DRAIN state the byte at RD is that byte of the transmission of CMD, so the two statements before this
one apply to it (R36, R55). -/
def Obligations.DrainByteIsTransmissionByte : Prop :=
  ∀ s : State, s.Inv → s.phase = .drain →
    ∃ c v, s.command = some c ∧ s.buf.length = s.cfg.txBytes ∧ s.buf.read s.rd = some v ∧
      (tx s.cfg c)[s.rd]? = some v

/-- A sink that is only slow makes the block wait, with nothing changed (R188, R186); that exec answers a next state there
is the model's choice (log 12). -/
def Obligations.SlowSinkChangesNothing : Prop :=
  ∀ i (s : State), s.phase = .drain → s.outReady = false → s.sinkFail = false → exec i s = .next s

/-- Fault entry (R205, R203, R208): in DRAIN with `sink_fail = 1`, whatever `out_ready` is, FAULT becomes 1 and PHASE
HALT, no byte is delivered, and what is pending stays pending. That the entry is a next state of the model is its choice
(log 12). -/
def Obligations.SinkFaultEntry : Prop :=
  ∀ i (s : State), s.phase = .drain → s.sinkFail = true →
    ∃ t, exec i s = .next t ∧ t.fault = .sinkFault ∧ t.phase = .halt ∧ t.sink = s.sink ∧ t.req = s.req ∧
      t.cfg = s.cfg ∧ t.outValid = false

/-- The model's reading of R60 and R183 (log 11): outside IDLE it makes no difference which Command is presented. -/
def Obligations.PresentedCommandIgnoredOutsideIdle : Prop :=
  ∀ i j (s : State), s.phase ≠ .idle → exec i s = exec j s

/-- The frame of every Command, phase by phase: what keeps its value when exec goes on. In SYNTH every address outside
the two bytes at the append address reads as before; in DRAIN every address does until the drain ends; accept and the end
of the drain empty the buffer. That a Command not presented in IDLE, a slow sink and HALT answer the same state is the
model's choice (logs 11 and 12). -/
def Obligations.CommandFrame : Prop :=
  ∀ i (s t : State), exec i s = .next t →
    (t.cfg = s.cfg ∧ t.rst = s.rst ∧ t.outReady = s.outReady ∧ t.sinkFail = s.sinkFail ∧ t.arb = s.arb ∧
      t.env = s.env) ∧
    (s.phase = .idle →
      t.fault = s.fault ∧ t.sink = s.sink ∧ t.freeIx = s.freeIx ∧ (s.portOf (encode i) = none → t = s) ∧
        ∀ p, s.portOf (encode i) = some p → t.buf = [] ∧ ∀ q, q ≠ p → t.reqAt q = s.reqAt q) ∧
    (s.phase = .synth →
      t.cmd = s.cmd ∧ t.rd = s.rd ∧ t.fault = s.fault ∧ t.sink = s.sink ∧ t.req = s.req ∧ t.freeIx = s.freeIx ∧
        ∀ a, a < s.appendAddress ∨ s.appendAddress + 2 ≤ a → t.buf.read a = s.buf.read a) ∧
    (s.phase = .drain → s.sinkFail = false →
      t.cmd = s.cmd ∧ t.sidx = s.sidx ∧ t.fault = s.fault ∧ t.req = s.req ∧ t.freeIx = s.freeIx ∧
        (t.phase = .drain → ∀ a, t.buf.read a = s.buf.read a) ∧ (t.phase ≠ .drain → t.phase = .idle ∧ t.buf = [])) ∧
    (s.phase = .halt → t = s)

/-! ### The step -/

/-- A step runs the instruction its word decodes to, and then the environment moves (R182; log 1). -/
def Obligations.StepRunsDecodedInstruction : Prop :=
  ∀ (s t : State) w i, s.cfg.wf = true → s.rst = false → s.fetch = some w → decode w = some i →
    step s = thenAdvance (exec i s) ∧ (exec i s = .next t → step s = .next t.advance)

/-- Which word a step runs (R60, R183): in IDLE the word on the granted port, in SYNTH and DRAIN the word in CMD whatever
the ports show, in HALT none. -/
def Obligations.FetchByPhase : Prop :=
  ∀ s : State,
    (∀ p, s.phase = .idle → s.granted = some p → s.fetch = s.reqAt p) ∧
      (s.phase = .synth ∨ s.phase = .drain → s.fetch = some s.cmd) ∧ (s.phase = .halt → s.fetch = none)

/-- The word placed by `withFetchWord` is the one the very next step accepts (log 17). -/
def Obligations.PlacedWordRunsNext : Prop :=
  ∀ (s : State) nbits w i, s.cfg.wf = true → decodeTableWord nbits w = some i →
    step (s.withFetchWord nbits w) = thenAdvance (exec i (s.withFetchWord nbits w)) ∧
      exec i (s.withFetchWord nbits w) = .next ((s.withFetchWord nbits w).accept 0 (encode i))

/-- The environment's move (R35, R196, R226; log 10): it touches no element of the block, sets the input levels, never
changes or withdraws a pending submission, and raises one only on a port of the machine with nothing pending.
That producers reset together with the block keep their submissions is the model's choice (log 25). -/
def Obligations.EnvironmentMoveTouchesOnlyInputs : Prop :=
  ∀ s : State,
    (s.advance.cfg = s.cfg ∧ s.advance.phase = s.phase ∧ s.advance.cmd = s.cmd ∧ s.advance.sidx = s.sidx ∧
      s.advance.buf = s.buf ∧ s.advance.rd = s.rd ∧ s.advance.fault = s.fault ∧ s.advance.sink = s.sink) ∧
    (∀ p w, s.reqAt p = some w → s.advance.reqAt p = some w) ∧
    (∀ p w, s.reqAt p = none → s.advance.reqAt p = some w → p < s.cfg.nPorts ∧ (p, w) ∈ s.nextMove.submits) ∧
    ∀ mv rest, s.env = mv :: rest →
      s.advance.env = rest ∧ s.advance.freeIx = s.freeIx ∧ s.advance.rst = mv.rst ∧
        s.advance.outReady = mv.outReady ∧ s.advance.sinkFail = mv.sinkFail ∧ s.advance.arb = mv.arb ∧
        ∀ p w, mv.submits = [(p, w)] → p < s.cfg.nPorts → s.req.length = s.cfg.nPorts → s.reqAt p = none →
          s.advance.reqAt p = some w

/-- Waiting (R188): in the three waiting situations nothing of the block changes; and a step that goes on and leaves PHASE,
SIDX and RD as they are is one of a waiting situation. R188 says that the block takes no step there; that the machine takes
a step in which only the environment moves is the model's choice (log 12). With only reserved words pending the model
refuses instead of waiting (log 9). -/
def Obligations.WaitingStepMovesOnlyEnvironment : Prop :=
  ∀ s : State, s.Inv → s.rst = false →
    (s.Waiting → step s = .next s.advance) ∧
      ∀ t, step s = .next t → t.phase = s.phase → t.sidx = s.sidx → t.rd = s.rd → s.Waiting

/-- Reset (R220, R223, R208): whatever the state and whatever else is pending or enabled, a step with `rst = 1` leaves the
reset state of R38, delivers nothing (a new observation of the sink starts: log 19) and keeps every pending submission; in that
step `out_valid` and every `req_ready` are 0.
That producers reset together with the block keep their submissions is the model's choice (log 25). -/
def Obligations.ResetStepWinsOverEverything : Prop :=
  ∀ s : State, s.cfg.wf = true → s.rst = true →
    ∃ t, step s = .next t ∧ t.phase = .idle ∧ t.fault = .none ∧ t.buf = [] ∧ t.rd = 0 ∧ t.sidx = 0 ∧ t.sink = [] ∧
      t.cfg = s.cfg ∧ (∀ p w, s.reqAt p = some w → t.reqAt p = some w) ∧ s.outValid = false ∧
      ∀ p, s.reqReady p = false

/-- The reset state of R38 under every configuration, and the output ports in it (nothing is pending in it: log 18). The
reference configuration of `State.reset` is the model's choice (log 3). -/
def Obligations.ResetStateAsListed : Prop :=
  (∀ cfg, (State.resetWith cfg).phase = .idle ∧ (State.resetWith cfg).fault = .none ∧ (State.resetWith cfg).buf = [] ∧
    (State.resetWith cfg).rd = 0 ∧ (State.resetWith cfg).sidx = 0 ∧ (State.resetWith cfg).sink = [] ∧
    (State.resetWith cfg).outValid = false ∧ (∀ p, (State.resetWith cfg).reqReady p = false) ∧
    (State.resetWith cfg).phasePort = 0#2 ∧ (State.resetWith cfg).faultPort = 0#2) ∧
  State.reset = State.resetWith State.reset.cfg

/-- HALT (R206, R207): no Command does anything; without reset, whatever the sink's inputs, the block stays in HALT with
FAULT and SINK as they are, every submission stays pending and none is granted; reset leaves HALT, clears FAULT and empties
BUF (R220) and keeps every submission (R223). R206 says that the block takes no step in HALT; that exec and step answer a
next state there is the model's choice (log 12), and that the observation SINK is emptied by reset is its reading of R222
(log 19).
That producers reset together with the block keep their submissions is the model's choice (log 25). -/
def Obligations.OnlyResetLeavesHalt : Prop :=
  ∀ s : State, s.cfg.wf = true → s.phase = .halt →
    (∀ i, exec i s = .next s) ∧
    ∃ t, step s = .next t ∧ (s.rst = true → t.phase = .idle ∧ t.fault = .none ∧ t.buf = [] ∧ t.sink = []) ∧
      (s.rst = false → t.phase = .halt ∧ t.fault = s.fault ∧ t.sink = s.sink) ∧
      (∀ p w, s.reqAt p = some w → t.reqAt p = some w) ∧ ∀ p, s.reqReady p = false

/-- Reserved words (R77, R183; log 9): when the words pending in IDLE are all reserved, the step is refused with one of
them. -/
def Obligations.OnlyReservedPendingIsRefused : Prop :=
  ∀ (s : State) p w, s.cfg.wf = true → s.rst = false → s.phase = .idle → p < s.cfg.nPorts → s.reqAt p = some w →
    (∀ q v, q < s.cfg.nPorts → s.reqAt q = some v → decode v = none) →
    ∃ q v, q < s.cfg.nPorts ∧ s.reqAt q = some v ∧ step s = .refused (.reservedWord v)

/-- A configuration outside R12 is refused in every state (R12, R142; D19; log 22). -/
def Obligations.IllegalConfigurationRefused : Prop :=
  ∀ s : State,
    s.cfg.bitRate = 0 ∨ s.cfg.sampleRate < 4 * s.cfg.bitRate ∨ s.cfg.flushLen = 0 ∨ s.cfg.nPorts = 0 →
      step s = .refused .illegalConfig

/-! ### Arbitration -/

/-- With a legal word pending the accept step is enabled whatever the arbiter's choice, and every pending legal port can be
granted: for each of them some choice of the arbiter takes exactly it (R183, R184). -/
def Obligations.EveryPendingPortCanBeGranted : Prop :=
  ∀ (s : State) p w i, s.cfg.wf = true → s.rst = false → s.phase = .idle → p < s.cfg.nPorts → s.reqAt p = some w →
    decode w = some i →
    (∃ q, s.granted = some q) ∧
    ∃ a, step { s with arb := a } = .next (({ s with arb := a } : State).accept p w).advance ∧
      ({ s with arb := a } : State).reqReady p = true

/-- A grant takes exactly one port, one with a legal word pending; the others stay pending and unchanged, and
`req_ready` is 1 on that port alone (R183, R184). -/
def Obligations.GrantTakesExactlyOnePort : Prop :=
  ∀ (s : State) p, s.cfg.wf = true → s.rst = false → s.phase = .idle → s.granted = some p →
    ∃ w i, p < s.cfg.nPorts ∧ s.reqAt p = some w ∧ decode w = some i ∧ step s = .next (s.accept p w).advance ∧
      (s.accept p w).reqAt p = none ∧ (∀ q, q ≠ p → (s.accept p w).reqAt q = s.reqAt q) ∧
      ∀ q, s.reqReady q = decide (q = p)

/-! ### Whole-machine rules -/

/-- The configuration never changes (R29). -/
def Obligations.ConfigurationNeverChanges : Prop :=
  ∀ s t : State, step s = .next t → t.cfg = s.cfg

/-- Which transition writes which element (the table of R20, R21, R24, R28, R33): a step without reset that changes an
element is one of the transitions listed for it, with the value that transition gives. In SYNTH that is for BUF the sample of the Command in CMD at index SIDX, stored at
the append address and the one after it (R185, R62). HALT's elements are unspecified. -/
def Obligations.ElementsWrittenOnlyAsListed : Prop :=
  ∀ s t : State, s.rst = false → step s = .next t →
    (t.cmd ≠ s.cmd →
      (s.phase = .idle ∧ t.phase = .synth ∧ ∃ p, s.granted = some p ∧ s.reqAt p = some t.cmd) ∨
        (s.phase = .drain ∧ t.phase = .halt)) ∧
    (t.sidx ≠ s.sidx →
      (s.phase = .idle ∧ t.phase = .synth ∧ t.sidx = 0) ∨ (s.phase = .synth ∧ t.sidx = s.sidx + 1) ∨
        (s.phase = .drain ∧ t.phase = .halt)) ∧
    (t.rd ≠ s.rd →
      (s.phase = .idle ∧ t.phase = .synth ∧ t.rd = 0) ∨ (s.phase = .drain ∧ (t.rd = s.rd + 1 ∨ t.rd = 0)) ∨
        (s.phase = .drain ∧ t.phase = .halt)) ∧
    (t.buf ≠ s.buf →
      (s.phase = .idle ∧ t.phase = .synth ∧ t.buf = []) ∨ (s.phase = .synth ∧ ∃ c x y, s.command = some c ∧ (sampleAt s.cfg c s.sidx).bytes = [x, y] ∧
          t.buf = s.buf ++ [(s.appendAddress, x), (s.appendAddress + 1, y)]) ∨
        (s.phase = .drain ∧ t.phase = .idle ∧ t.buf = []) ∨ (s.phase = .drain ∧ t.phase = .halt)) ∧
    (t.fault ≠ s.fault → s.phase = .drain ∧ s.sinkFail = true ∧ t.fault = .sinkFault ∧ t.phase = .halt)

/-- The phase graph: without reset the phases change only as R25 and R182 say. -/
def Obligations.PhasesFollowTheGraph : Prop :=
  ∀ s t : State, s.rst = false → step s = .next t →
    (s.phase, t.phase) ∈ [(Phase.idle, Phase.idle), (.idle, .synth), (.synth, .synth), (.synth, .drain),
      (.drain, .drain), (.drain, .idle), (.drain, .halt), (.halt, .halt)]

/-- The sink receives a byte in exactly the steps where the block drains, the sink is ready and does not fail, and then
exactly `BUF[RD]`; in every other step SINK is as before (R34, R54, R186, R203). -/
def Obligations.SinkReceivesExactlyDrainedBytes : Prop :=
  ∀ s t : State, s.rst = false → step s = .next t →
    if s.phase = .drain ∧ s.outReady = true ∧ s.sinkFail = false then
      ∃ v, s.buf.read s.rd = some v ∧ t.sink = s.sink ++ [v]
    else t.sink = s.sink

/-- Back-pressure (R189, R35): a pending submission stays pending and unchanged through every step but the one that
accepts it.
That producers reset together with the block keep their submissions is the model's choice (log 25). -/
def Obligations.PendingSubmissionWaitsForItsAccept : Prop :=
  ∀ (s t : State) p w, step s = .next t → s.reqAt p = some w → s.reqReady p = false → t.reqAt p = some w

/-- The next state with a function applied, and every stop as it is. -/
def onNextState (f : State → State) : Host.Outcome State Fault Refusal → Host.Outcome State Fault Refusal
  | .next t => .next (f t)
  | .fault x => .fault x
  | .refused x => .refused x

/-- `out_ready` and `sink_fail` have no effect outside DRAIN (R203, V6, V7). -/
def Obligations.SinkInputsIgnoredOutsideDrain : Prop :=
  ∀ i (s : State) b f, s.phase ≠ .drain →
    exec i { s with outReady := b, sinkFail := f }
      = onNextState (fun t => { t with outReady := b, sinkFail := f }) (exec i s)

/-- Once a Command is accepted, nothing on the request ports affects its transmission (R60, R208 (3)). -/
def Obligations.RequestsIgnoredDuringTransmission : Prop :=
  ∀ i (s : State) r a, s.phase ≠ .idle →
    exec i { s with req := r, arb := a } = onNextState (fun t => { t with req := r, arb := a }) (exec i s)

/-! ### Ports -/

/-- The status codes and the output ports in every state (R25, R28, R31): `req_ready` is 1 exactly on the port whose
Command this step accepts, so 0 on every port in a reset step, in SYNTH, DRAIN and HALT and in IDLE with nothing granted;
`out_valid` is 1 exactly in DRAIN without reset, and then `out_data` is `BUF[RD]`. -/
def Obligations.OutputPortsFollowState : Prop :=
  ∀ s : State,
    (s.phasePort = match s.phase with
      | .idle => 0#2
      | .synth => 1#2
      | .drain => 2#2
      | .halt => 3#2) ∧
    (s.faultPort = match s.fault with
      | .none => 0#2
      | .sinkFault => 1#2) ∧
    (∀ p, s.reqReady p = true ↔ s.rst = false ∧ s.phase = .idle ∧ s.granted = some p) ∧
    (s.outValid = true ↔ s.rst = false ∧ s.phase = .drain) ∧
    ∀ v, s.outValid = true → s.buf.read s.rd = some v → s.outData = v

/-- While the sink is not ready the block holds `out_valid = 1` and `out_data = BUF[RD]` (R186). That the wait is a step,
after which the held levels are seen again, is the model's choice (log 12). -/
def Obligations.StalledByteIsHeld : Prop :=
  ∀ s : State, s.Inv → s.rst = false → s.phase = .drain → s.outReady = false → s.sinkFail = false →
    ∃ t v, step s = .next t ∧ s.buf.read s.rd = some v ∧ s.outValid = true ∧ s.outData = v ∧
      t.phase = .drain ∧ t.rd = s.rd ∧ t.buf = s.buf ∧ t.sink = s.sink ∧
      (t.rst = false → t.outValid = true ∧ t.outData = v)

/-! ### Invariants -/

/-- The invariant of R36 holds after reset in every legal configuration. -/
def Obligations.InvariantHoldsAtReset : Prop :=
  (∀ cfg : Config, cfg.wf = true → (State.resetWith cfg).Inv ∧ (State.resetWith cfg).SinkShape) ∧ State.reset.Inv

/-- Every step keeps the invariant of R36, reset steps and fault entries included. -/
def Obligations.EveryStepKeepsInvariant : Prop :=
  ∀ s t : State, s.Inv → step s = .next t → t.Inv

/-- Every step keeps the shape of the sink stream of R57 (3): since the last reset (log 19) whole transmissions, then a
prefix of the present one. -/
def Obligations.EveryStepKeepsSinkShape : Prop :=
  ∀ s t : State, s.Inv → s.SinkShape → step s = .next t → t.SinkShape

/-- From a state of the invariant no step faults, and the one refusal is that of a reserved word pending in IDLE. That the
sink fault and HALT are next states, although R209 calls HALT a fault, and that a wait is one, although R188 gives it no
step, is the model's choice (log 12); that only reserved words pending are refused, and not waited on, is its reading of
R77 and R183 against R188 (log 9). -/
def Obligations.OnlyReservedWordsStopTheBlock : Prop :=
  ∀ s : State, s.Inv →
    (∃ t, step s = .next t) ∨
      ∃ w, step s = .refused (.reservedWord w) ∧ s.phase = .idle ∧ s.granted = none ∧ decode w = none ∧
        ∃ p, s.reqAt p = some w

/-- Only the two byte values ever reach the sink, an odd-indexed byte is 127, and when the block is idle the sink has
received a whole number of transmissions (R51, R53). -/
def Obligations.SinkStreamAlignment : Prop :=
  ∀ s : State, s.SinkShape →
    (∀ k v, s.sink[k]? = some v → (v = 255#8 ∨ v = 127#8) ∧ (k % 2 = 1 → v = 127#8)) ∧
      (s.phase = .idle → s.sink.length % s.cfg.txBytes = 0)

/-! ### Whole transmissions -/

/-- Synthesis needs nothing from the environment: from SYNTH, without reset and whatever the sink does, the remaining
`TX_SAMPLES - SIDX` steps leave the whole transmission in the buffer and the block in DRAIN (R185). -/
def Obligations.SynthesisRunsToTheWholeTransmission : Prop :=
  ∀ (s : State) c, s.Inv → s.phase = .synth → s.command = some c → s.rst = false →
    s.cfg.txSamples ≤ s.sidx + 1 + s.env.length →
    (∀ mv ∈ s.env.take (s.cfg.txSamples - s.sidx - 1), mv.rst = false) →
    ∃ t, run (s.cfg.txSamples - s.sidx) s = .next t ∧ t.phase = .drain ∧ t.rd = 0 ∧ t.cmd = s.cmd ∧
      t.buf.bytes = tx s.cfg c ∧ t.sink = s.sink

/-- One Command, one transmission (R15, R183 to R187): from IDLE with the Command granted, and a sink that is ready while
the block drains, `1 + TX_SAMPLES + TX_BYTES` steps without reset deliver exactly the bytes of its transmission and leave
the block idle again. -/
def Obligations.CommandIsTransmittedInFull : Prop :=
  ∀ (s : State) i p, s.Inv → s.phase = .idle → s.rst = false → s.granted = some p → s.reqAt p = some (encode i) →
    s.cfg.txSamples + s.cfg.txBytes ≤ s.env.length →
    (∀ mv ∈ s.env.take (s.cfg.txSamples + s.cfg.txBytes), mv.rst = false) →
    (∀ mv ∈ (s.env.drop s.cfg.txSamples).take s.cfg.txBytes, ReadyMove mv) →
    ∃ t, run (1 + s.cfg.txSamples + s.cfg.txBytes) s = .next t ∧ t.phase = .idle ∧ t.fault = .none ∧ t.buf = [] ∧
      t.rd = 0 ∧ t.cmd = encode i ∧ t.sink = s.sink ++ tx s.cfg i.command

/-- No interleaving, exactly once, in acceptance order (R57, R190, R191): over any run without reset that does not end in
HALT, what the sink has received together with what it is still owed grows by exactly the transmissions of the Commands
accepted, in the order of their accept steps. -/
def Obligations.TransmissionsReachTheSinkInAcceptanceOrder : Prop :=
  ∀ (k : Nat) (s t : State), s.Inv → noResetIn k s → run k s = .next t → t.phase ≠ .halt →
    t.sink ++ t.owed = s.sink ++ s.owed ++ transmissions s.cfg (acceptedIn k s)
end

