-- ==== Sys2Proof/Laws/Decode.lean ====
section
/-! SUPPORT. Lemmas about the decoder: what it reads from each word, and that it agrees with the legality of R76. -/

namespace Sys2Proof

/-- Each instruction is the one its Command names. -/
@[simp] theorem Instr.command_instr (i : Instr) : i.command.instr = i := by
  cases i <;> rfl

/-- Each Command is the one its instruction names. -/
@[simp] theorem Command.instr_command (c : Command) : c.instr.command = c := by
  rcases c with ⟨_ | _ | _ | _, _ | _ | _, _ | _⟩ <;> rfl

/-- The word of a Command decodes to it. -/
@[simp] theorem decodeCommand_encodeCommand (c : Command) : decodeCommand (encodeCommand c) = some c := by
  rcases c with ⟨_ | _ | _ | _, _ | _ | _, _ | _⟩ <;> decide

/-- The Command of an instruction's word. -/
@[simp] theorem decodeCommand_encode (i : Instr) : decodeCommand (encode i) = some i.command :=
  decodeCommand_encodeCommand i.command

/-- `decode` is `decodeCommand` followed by the naming of the instruction. -/
theorem decode_eq_map (w : CmdWord) : decode w = (decodeCommand w).map Command.instr := by
  unfold decode; cases decodeCommand w <;> rfl

/-- A word that decodes is the word of what it decodes to (R89: one identifier, one word). -/
theorem encodeCommand_of_decodeCommand : ∀ w : CmdWord,
    (decodeCommand w).all (fun c => encodeCommand c == w) = true := by
  decide

/-- Exactly the legal words decode (R76, R77). -/
theorem decode_isSome_eq_legal : ∀ w : CmdWord, (decode w).isSome = w.legal := by
  decide

end Sys2Proof
end

