-- ==== Sys2Proof/Laws/Ports.lean ====
section
/-! SUPPORT. The request ports: the arbiter's order visits every port, what a grant takes, and that the port a Command is
taken from is the granted one when its word is the granted word. -/

namespace Sys2Proof.Machine

/-- A port's word after the pending list is changed in one place. -/
theorem getElem?_set_join (l : List (Option CmdWord)) (p q : Nat) (x : Option CmdWord) :
    ((l.set p x)[q]?).join = if p = q ∧ p < l.length then x else (l[q]?).join := by
  rw [List.getElem?_set]
  by_cases hpq : p = q
  · subst hpq
    by_cases hp : p < l.length
    · simp [hp]
    · simp [hp]
  · simp [hpq]

/-- A port that holds a word exists. -/
theorem State.lt_of_reqAt {s : State} {p : Nat} {w : CmdWord} (h : s.reqAt p = some w) : p < s.req.length := by
  unfold State.reqAt at h
  by_contra hge
  rw [List.getElem?_eq_none (by omega)] at h
  cases h

/-- The arbiter looks at exactly the ports of the machine. -/
@[simp] theorem State.mem_portOrder (s : State) (p : Nat) : p ∈ s.portOrder ↔ p < s.cfg.nPorts := by
  unfold State.portOrder
  simp only [List.mem_map, List.mem_range]
  constructor
  · rintro ⟨k, hk, rfl⟩
    exact Nat.mod_lt _ (by omega)
  · intro hp
    refine ⟨(p + (s.cfg.nPorts - s.arb % s.cfg.nPorts)) % s.cfg.nPorts, Nat.mod_lt _ (by omega), ?_⟩
    have hlt : s.arb % s.cfg.nPorts < s.cfg.nPorts := Nat.mod_lt _ (by omega)
    rw [Nat.add_mod_mod, ← Nat.mod_add_mod]
    have : s.arb % s.cfg.nPorts + (p + (s.cfg.nPorts - s.arb % s.cfg.nPorts)) = p + s.cfg.nPorts := by omega
    rw [this, Nat.add_mod_right, Nat.mod_eq_of_lt hp]

/-- A port with a legal word pending, spelled out. -/
theorem State.pendingLegal_iff (s : State) (p : Nat) :
    s.pendingLegal p = true ↔ ∃ w i, s.reqAt p = some w ∧ decode w = some i := by
  unfold State.pendingLegal
  cases h : s.reqAt p with
  | none => simp
  | some w => simp [Option.isSome_iff_exists]

/-- What the arbiter grants is a port of the machine with a legal word pending. -/
theorem State.granted_spec {s : State} {p : Nat} (h : s.granted = some p) :
    p < s.cfg.nPorts ∧ ∃ w i, s.reqAt p = some w ∧ decode w = some i := by
  unfold State.granted at h
  exact ⟨(s.mem_portOrder p).mp (List.mem_of_find?_eq_some h),
    (s.pendingLegal_iff p).mp (List.find?_some h)⟩

/-- The arbiter grants nothing exactly when no port has a legal word pending. -/
theorem State.granted_eq_none_iff (s : State) :
    s.granted = none ↔ ∀ p w, p < s.cfg.nPorts → s.reqAt p = some w → decode w = none := by
  unfold State.granted
  rw [List.find?_eq_none]
  constructor
  · intro h p w hp hw
    cases hd : decode w with
    | none => rfl
    | some i => exact absurd ((s.pendingLegal_iff p).mpr ⟨w, i, hw, hd⟩) (h p ((s.mem_portOrder p).mpr hp))
  · intro h p hp hl
    obtain ⟨w, i, hw, hd⟩ := (s.pendingLegal_iff p).mp hl
    rw [h p w ((s.mem_portOrder p).mp hp) hw] at hd
    cases hd

/-- The port a Command is taken from is a port of the machine that presents its word. -/
theorem State.portOf_spec {s : State} {w : CmdWord} {p : Nat} (h : s.portOf w = some p) :
    p < s.cfg.nPorts ∧ s.reqAt p = some w := by
  unfold State.portOf at h
  exact ⟨(s.mem_portOrder p).mp (List.mem_of_find?_eq_some h), by simpa using List.find?_some h⟩

/-- No port presents the word. -/
theorem State.portOf_eq_none_iff (s : State) (w : CmdWord) :
    s.portOf w = none ↔ ∀ p, p < s.cfg.nPorts → s.reqAt p ≠ some w := by
  unfold State.portOf
  rw [List.find?_eq_none]
  simp

/-- If the first element that satisfies `P` also satisfies the stronger `Q`, it is the first that satisfies `Q`. -/
theorem find?_of_imp {α : Type} {P Q : α → Bool} (himp : ∀ a, Q a = true → P a = true) :
    ∀ {l : List α} {x : α}, l.find? P = some x → Q x = true → l.find? Q = some x := by
  intro l
  induction l with
  | nil => intro x h; cases h
  | cons a l ih =>
    intro x h hq
    rw [List.find?_cons] at h ⊢
    cases hP : P a with
    | true =>
      rw [hP] at h
      cases h
      rw [hq]
    | false =>
      rw [hP] at h
      have : Q a = false := by
        cases hQ : Q a with
        | false => rfl
        | true => rw [himp a hQ] at hP; cases hP
      rw [this]
      exact ih h hq

/-- The Command on the granted port is taken from that port. -/
theorem State.portOf_of_granted {s : State} {p : Nat} {w : CmdWord} (hg : s.granted = some p)
    (hw : s.reqAt p = some w) : s.portOf w = some p := by
  obtain ⟨_, w', i, hw', hd⟩ := State.granted_spec hg
  rw [hw] at hw'
  cases hw'
  refine find?_of_imp ?_ hg (by simp [hw])
  intro q hq
  exact (s.pendingLegal_iff q).mpr ⟨w, i, by simpa using hq, hd⟩

/-- A port of the machine is looked at first for some choice of the arbiter, so it is granted if it is pending. -/
theorem State.granted_of_arb_eq {s : State} {p : Nat} (hp : p < s.cfg.nPorts) (harb : s.arb = p)
    (hl : s.pendingLegal p = true) : s.granted = some p := by
  have hne : ∃ n, s.cfg.nPorts = n + 1 := ⟨s.cfg.nPorts - 1, by omega⟩
  obtain ⟨n, hn⟩ := hne
  have hord : s.portOrder = p :: ((List.range n).map fun k => (s.arb + (k + 1)) % s.cfg.nPorts) := by
    have h0 : s.arb % (n + 1) = p := by rw [harb]; exact Nat.mod_eq_of_lt (by omega)
    unfold State.portOrder
    simp [hn, List.range_succ_eq_map, h0]
  unfold State.granted
  rw [hord, List.find?_cons, hl]

/-- What the step fetches, phase by phase. -/
theorem State.fetch_idle_granted {s : State} {p : Nat} (h : s.phase = .idle) (hg : s.granted = some p) :
    s.fetch = s.reqAt p := by
  simp [State.fetch, h, hg]

theorem State.fetch_idle_none {s : State} (h : s.phase = .idle) (hg : s.granted = none) :
    s.fetch = s.portOrder.findSome? s.reqAt := by
  simp [State.fetch, h, hg]

@[simp] theorem State.fetch_synth {s : State} (h : s.phase = .synth) : s.fetch = some s.cmd := by
  simp [State.fetch, h]

@[simp] theorem State.fetch_drain {s : State} (h : s.phase = .drain) : s.fetch = some s.cmd := by
  simp [State.fetch, h]

@[simp] theorem State.fetch_halt {s : State} (h : s.phase = .halt) : s.fetch = none := by
  simp [State.fetch, h]

/-- With nothing granted in IDLE, what is fetched is a pending word that does not decode. -/
theorem State.fetch_idle_reserved {s : State} {w : CmdWord} (h : s.phase = .idle) (hg : s.granted = none)
    (hf : s.fetch = some w) : decode w = none ∧ ∃ p, p < s.cfg.nPorts ∧ s.reqAt p = some w := by
  rw [State.fetch_idle_none h hg] at hf
  obtain ⟨p, hp, hw⟩ := List.exists_of_findSome?_eq_some hf
  have hp' := (s.mem_portOrder p).mp hp
  exact ⟨(s.granted_eq_none_iff).mp hg p w hp' hw, p, hp', hw⟩

end Sys2Proof.Machine
end

