-- ==== Sys2Proof/Laws/State.lean ====
section
/-! SUPPORT. One lemma per field per update of State, each true by rfl, so that no later proof unfolds a record update. -/

namespace Sys2Proof.Machine

/-! ### accept -/

@[simp] theorem State.accept_cfg (s : State) (p : Nat) (w : CmdWord) : (s.accept p w).cfg = s.cfg := rfl
@[simp] theorem State.accept_phase (s : State) (p : Nat) (w : CmdWord) : (s.accept p w).phase = .synth := rfl
@[simp] theorem State.accept_cmd (s : State) (p : Nat) (w : CmdWord) : (s.accept p w).cmd = w := rfl
@[simp] theorem State.accept_sidx (s : State) (p : Nat) (w : CmdWord) : (s.accept p w).sidx = 0 := rfl
@[simp] theorem State.accept_buf (s : State) (p : Nat) (w : CmdWord) : (s.accept p w).buf = [] := rfl
@[simp] theorem State.accept_rd (s : State) (p : Nat) (w : CmdWord) : (s.accept p w).rd = 0 := rfl
@[simp] theorem State.accept_fault (s : State) (p : Nat) (w : CmdWord) : (s.accept p w).fault = s.fault := rfl
@[simp] theorem State.accept_sink (s : State) (p : Nat) (w : CmdWord) : (s.accept p w).sink = s.sink := rfl
@[simp] theorem State.accept_req (s : State) (p : Nat) (w : CmdWord) : (s.accept p w).req = s.req.set p none := rfl
@[simp] theorem State.accept_rst (s : State) (p : Nat) (w : CmdWord) : (s.accept p w).rst = s.rst := rfl
@[simp] theorem State.accept_outReady (s : State) (p : Nat) (w : CmdWord) : (s.accept p w).outReady = s.outReady := rfl
@[simp] theorem State.accept_sinkFail (s : State) (p : Nat) (w : CmdWord) : (s.accept p w).sinkFail = s.sinkFail := rfl
@[simp] theorem State.accept_arb (s : State) (p : Nat) (w : CmdWord) : (s.accept p w).arb = s.arb := rfl
@[simp] theorem State.accept_env (s : State) (p : Nat) (w : CmdWord) : (s.accept p w).env = s.env := rfl
@[simp] theorem State.accept_freeIx (s : State) (p : Nat) (w : CmdWord) : (s.accept p w).freeIx = s.freeIx := rfl

/-! ### sinkWrite -/

@[simp] theorem State.sinkWrite_cfg (s : State) (v : Byte) : (s.sinkWrite v).cfg = s.cfg := rfl
@[simp] theorem State.sinkWrite_phase (s : State) (v : Byte) : (s.sinkWrite v).phase = s.phase := rfl
@[simp] theorem State.sinkWrite_cmd (s : State) (v : Byte) : (s.sinkWrite v).cmd = s.cmd := rfl
@[simp] theorem State.sinkWrite_sidx (s : State) (v : Byte) : (s.sinkWrite v).sidx = s.sidx := rfl
@[simp] theorem State.sinkWrite_buf (s : State) (v : Byte) : (s.sinkWrite v).buf = s.buf := rfl
@[simp] theorem State.sinkWrite_rd (s : State) (v : Byte) : (s.sinkWrite v).rd = s.rd := rfl
@[simp] theorem State.sinkWrite_fault (s : State) (v : Byte) : (s.sinkWrite v).fault = s.fault := rfl
@[simp] theorem State.sinkWrite_sink (s : State) (v : Byte) : (s.sinkWrite v).sink = s.sink ++ [v] := rfl
@[simp] theorem State.sinkWrite_req (s : State) (v : Byte) : (s.sinkWrite v).req = s.req := rfl
@[simp] theorem State.sinkWrite_rst (s : State) (v : Byte) : (s.sinkWrite v).rst = s.rst := rfl
@[simp] theorem State.sinkWrite_outReady (s : State) (v : Byte) : (s.sinkWrite v).outReady = s.outReady := rfl
@[simp] theorem State.sinkWrite_sinkFail (s : State) (v : Byte) : (s.sinkWrite v).sinkFail = s.sinkFail := rfl
@[simp] theorem State.sinkWrite_arb (s : State) (v : Byte) : (s.sinkWrite v).arb = s.arb := rfl
@[simp] theorem State.sinkWrite_env (s : State) (v : Byte) : (s.sinkWrite v).env = s.env := rfl
@[simp] theorem State.sinkWrite_freeIx (s : State) (v : Byte) : (s.sinkWrite v).freeIx = s.freeIx := rfl

/-! ### endDrain -/

@[simp] theorem State.endDrain_cfg (s : State) : (s.endDrain).cfg = s.cfg := rfl
@[simp] theorem State.endDrain_phase (s : State) : (s.endDrain).phase = .idle := rfl
@[simp] theorem State.endDrain_cmd (s : State) : (s.endDrain).cmd = s.cmd := rfl
@[simp] theorem State.endDrain_sidx (s : State) : (s.endDrain).sidx = s.sidx := rfl
@[simp] theorem State.endDrain_buf (s : State) : (s.endDrain).buf = [] := rfl
@[simp] theorem State.endDrain_rd (s : State) : (s.endDrain).rd = 0 := rfl
@[simp] theorem State.endDrain_fault (s : State) : (s.endDrain).fault = s.fault := rfl
@[simp] theorem State.endDrain_sink (s : State) : (s.endDrain).sink = s.sink := rfl
@[simp] theorem State.endDrain_req (s : State) : (s.endDrain).req = s.req := rfl
@[simp] theorem State.endDrain_rst (s : State) : (s.endDrain).rst = s.rst := rfl
@[simp] theorem State.endDrain_outReady (s : State) : (s.endDrain).outReady = s.outReady := rfl
@[simp] theorem State.endDrain_sinkFail (s : State) : (s.endDrain).sinkFail = s.sinkFail := rfl
@[simp] theorem State.endDrain_arb (s : State) : (s.endDrain).arb = s.arb := rfl
@[simp] theorem State.endDrain_env (s : State) : (s.endDrain).env = s.env := rfl
@[simp] theorem State.endDrain_freeIx (s : State) : (s.endDrain).freeIx = s.freeIx := rfl

/-! ### raiseSinkFault -/

@[simp] theorem State.raiseSinkFault_cfg (s : State) : (s.raiseSinkFault).cfg = s.cfg := rfl
@[simp] theorem State.raiseSinkFault_phase (s : State) : (s.raiseSinkFault).phase = .halt := rfl
@[simp] theorem State.raiseSinkFault_cmd (s : State) : (s.raiseSinkFault).cmd = Config.freeCmd s.freeIx := rfl
@[simp] theorem State.raiseSinkFault_sidx (s : State) : (s.raiseSinkFault).sidx = Config.freeSidx s.freeIx % (s.cfg.txSamples + 1) := rfl
@[simp] theorem State.raiseSinkFault_buf (s : State) : (s.raiseSinkFault).buf = Memory.ofBytes (((Config.freeBuf s.freeIx).take s.cfg.txSamples).flatMap fun q => [q.1, q.2]) := rfl
@[simp] theorem State.raiseSinkFault_rd (s : State) : (s.raiseSinkFault).rd = Config.freeRd s.freeIx % s.cfg.txBytes := rfl
@[simp] theorem State.raiseSinkFault_fault (s : State) : (s.raiseSinkFault).fault = .sinkFault := rfl
@[simp] theorem State.raiseSinkFault_sink (s : State) : (s.raiseSinkFault).sink = s.sink := rfl
@[simp] theorem State.raiseSinkFault_req (s : State) : (s.raiseSinkFault).req = s.req := rfl
@[simp] theorem State.raiseSinkFault_rst (s : State) : (s.raiseSinkFault).rst = s.rst := rfl
@[simp] theorem State.raiseSinkFault_outReady (s : State) : (s.raiseSinkFault).outReady = s.outReady := rfl
@[simp] theorem State.raiseSinkFault_sinkFail (s : State) : (s.raiseSinkFault).sinkFail = s.sinkFail := rfl
@[simp] theorem State.raiseSinkFault_arb (s : State) : (s.raiseSinkFault).arb = s.arb := rfl
@[simp] theorem State.raiseSinkFault_env (s : State) : (s.raiseSinkFault).env = s.env := rfl
@[simp] theorem State.raiseSinkFault_freeIx (s : State) : (s.raiseSinkFault).freeIx = s.freeIx + 1 := rfl

/-! ### resetStep -/

@[simp] theorem State.resetStep_cfg (s : State) : (s.resetStep).cfg = s.cfg := rfl
@[simp] theorem State.resetStep_phase (s : State) : (s.resetStep).phase = .idle := rfl
@[simp] theorem State.resetStep_cmd (s : State) : (s.resetStep).cmd = Config.freeCmd s.freeIx := rfl
@[simp] theorem State.resetStep_sidx (s : State) : (s.resetStep).sidx = 0 := rfl
@[simp] theorem State.resetStep_buf (s : State) : (s.resetStep).buf = [] := rfl
@[simp] theorem State.resetStep_rd (s : State) : (s.resetStep).rd = 0 := rfl
@[simp] theorem State.resetStep_fault (s : State) : (s.resetStep).fault = .none := rfl
@[simp] theorem State.resetStep_sink (s : State) : (s.resetStep).sink = [] := rfl
@[simp] theorem State.resetStep_req (s : State) : (s.resetStep).req = s.req := rfl
@[simp] theorem State.resetStep_rst (s : State) : (s.resetStep).rst = s.rst := rfl
@[simp] theorem State.resetStep_outReady (s : State) : (s.resetStep).outReady = s.outReady := rfl
@[simp] theorem State.resetStep_sinkFail (s : State) : (s.resetStep).sinkFail = s.sinkFail := rfl
@[simp] theorem State.resetStep_arb (s : State) : (s.resetStep).arb = s.arb := rfl
@[simp] theorem State.resetStep_env (s : State) : (s.resetStep).env = s.env := rfl
@[simp] theorem State.resetStep_freeIx (s : State) : (s.resetStep).freeIx = s.freeIx + 1 := rfl

/-! ### setInputs -/

@[simp] theorem State.setInputs_cfg (s : State) (mv : EnvMove) : (s.setInputs mv).cfg = s.cfg := rfl
@[simp] theorem State.setInputs_phase (s : State) (mv : EnvMove) : (s.setInputs mv).phase = s.phase := rfl
@[simp] theorem State.setInputs_cmd (s : State) (mv : EnvMove) : (s.setInputs mv).cmd = s.cmd := rfl
@[simp] theorem State.setInputs_sidx (s : State) (mv : EnvMove) : (s.setInputs mv).sidx = s.sidx := rfl
@[simp] theorem State.setInputs_buf (s : State) (mv : EnvMove) : (s.setInputs mv).buf = s.buf := rfl
@[simp] theorem State.setInputs_rd (s : State) (mv : EnvMove) : (s.setInputs mv).rd = s.rd := rfl
@[simp] theorem State.setInputs_fault (s : State) (mv : EnvMove) : (s.setInputs mv).fault = s.fault := rfl
@[simp] theorem State.setInputs_sink (s : State) (mv : EnvMove) : (s.setInputs mv).sink = s.sink := rfl
@[simp] theorem State.setInputs_req (s : State) (mv : EnvMove) : (s.setInputs mv).req = s.req := rfl
@[simp] theorem State.setInputs_rst (s : State) (mv : EnvMove) : (s.setInputs mv).rst = mv.rst := rfl
@[simp] theorem State.setInputs_outReady (s : State) (mv : EnvMove) : (s.setInputs mv).outReady = mv.outReady := rfl
@[simp] theorem State.setInputs_sinkFail (s : State) (mv : EnvMove) : (s.setInputs mv).sinkFail = mv.sinkFail := rfl
@[simp] theorem State.setInputs_arb (s : State) (mv : EnvMove) : (s.setInputs mv).arb = mv.arb := rfl
@[simp] theorem State.setInputs_env (s : State) (mv : EnvMove) : (s.setInputs mv).env = s.env := rfl
@[simp] theorem State.setInputs_freeIx (s : State) (mv : EnvMove) : (s.setInputs mv).freeIx = s.freeIx := rfl

/-! ### withFetchWord -/

@[simp] theorem State.withFetchWord_cfg (s : State) (nbits w : Nat) : (s.withFetchWord nbits w).cfg = s.cfg := rfl
@[simp] theorem State.withFetchWord_phase (s : State) (nbits w : Nat) : (s.withFetchWord nbits w).phase = .idle := rfl
@[simp] theorem State.withFetchWord_cmd (s : State) (nbits w : Nat) : (s.withFetchWord nbits w).cmd = s.cmd := rfl
@[simp] theorem State.withFetchWord_sidx (s : State) (nbits w : Nat) : (s.withFetchWord nbits w).sidx = s.sidx := rfl
@[simp] theorem State.withFetchWord_buf (s : State) (nbits w : Nat) : (s.withFetchWord nbits w).buf = [] := rfl
@[simp] theorem State.withFetchWord_rd (s : State) (nbits w : Nat) : (s.withFetchWord nbits w).rd = 0 := rfl
@[simp] theorem State.withFetchWord_fault (s : State) (nbits w : Nat) : (s.withFetchWord nbits w).fault = .none := rfl
@[simp] theorem State.withFetchWord_sink (s : State) (nbits w : Nat) : (s.withFetchWord nbits w).sink = s.sink := rfl
@[simp] theorem State.withFetchWord_req (s : State) (nbits w : Nat) : (s.withFetchWord nbits w).req = (List.replicate s.cfg.nPorts none).set 0 (some (BitVec.ofNat 5 w)) := rfl
@[simp] theorem State.withFetchWord_rst (s : State) (nbits w : Nat) : (s.withFetchWord nbits w).rst = false := rfl
@[simp] theorem State.withFetchWord_outReady (s : State) (nbits w : Nat) : (s.withFetchWord nbits w).outReady = s.outReady := rfl
@[simp] theorem State.withFetchWord_sinkFail (s : State) (nbits w : Nat) : (s.withFetchWord nbits w).sinkFail = s.sinkFail := rfl
@[simp] theorem State.withFetchWord_arb (s : State) (nbits w : Nat) : (s.withFetchWord nbits w).arb = 0 := rfl
@[simp] theorem State.withFetchWord_env (s : State) (nbits w : Nat) : (s.withFetchWord nbits w).env = s.env := rfl
@[simp] theorem State.withFetchWord_freeIx (s : State) (nbits w : Nat) : (s.withFetchWord nbits w).freeIx = s.freeIx := rfl

end Sys2Proof.Machine
end

