-- ==== Sys2Proof/Laws/Environment.lean ====
section
/-! SUPPORT. The environment's move: it touches no element of the block, keeps every pending submission and the number of
ports, and sets the input levels from the move. -/

namespace Sys2Proof.Machine

/-- Two states agree on the block's elements, the configuration and the observation. -/
structure State.SameBlock (s t : State) : Prop where
  cfg   : t.cfg = s.cfg
  phase : t.phase = s.phase
  cmd   : t.cmd = s.cmd
  sidx  : t.sidx = s.sidx
  buf   : t.buf = s.buf
  rd    : t.rd = s.rd
  fault : t.fault = s.fault
  sink  : t.sink = s.sink

theorem State.SameBlock.trans {s t u : State} (h : s.SameBlock t) (h' : t.SameBlock u) : s.SameBlock u :=
  ⟨h'.cfg.trans h.cfg, h'.phase.trans h.phase, h'.cmd.trans h.cmd, h'.sidx.trans h.sidx, h'.buf.trans h.buf,
    h'.rd.trans h.rd, h'.fault.trans h.fault, h'.sink.trans h.sink⟩

/-! ### Submissions -/

/-- What a list of submissions does to the request slots: their number stays, a pending one stays, and one that is new is
one of the list, on a port of the machine. -/
structure Raised (ports : Nat) (req req' : List (Option CmdWord)) (subs : List (Nat × CmdWord)) : Prop where
  length : req'.length = req.length
  keeps  : ∀ (p : Nat) (w : CmdWord), (req[p]?).join = some w → (req'[p]?).join = some w
  raised : ∀ (p : Nat) (w : CmdWord), (req[p]?).join = none → (req'[p]?).join = some w → p < ports ∧ (p, w) ∈ subs

theorem raised_refl (ports : Nat) (req : List (Option CmdWord)) (subs : List (Nat × CmdWord)) :
    Raised ports req req subs :=
  ⟨rfl, fun _ _ h => h, fun _ _ h h' => by rw [h] at h'; cases h'⟩

theorem raiseRequest_raised (ports : Nat) (req : List (Option CmdWord)) (sub : Nat × CmdWord) :
    Raised ports req (raiseRequest ports req sub) [sub] := by
  unfold raiseRequest
  split
  · next h =>
    refine ⟨by simp, ?_, ?_⟩
    · intro p w hw
      rw [getElem?_set_join]
      split
      · next hc => rw [← hc.1, h.2] at hw; cases hw
      · exact hw
    · intro p w hn hs
      rw [getElem?_set_join] at hs
      split at hs
      · next hc => cases hs; rw [← hc.1]; exact ⟨h.1, List.mem_singleton.mpr rfl⟩
      · rw [hn] at hs; cases hs
  · exact raised_refl _ _ _

theorem foldl_raiseRequest_raised (ports : Nat) (subs : List (Nat × CmdWord)) :
    ∀ req, Raised ports req (subs.foldl (raiseRequest ports) req) subs := by
  induction subs with
  | nil => exact fun req => raised_refl _ _ _
  | cons sub subs ih =>
    intro req
    have h1 := raiseRequest_raised ports req sub
    have h2 := ih (raiseRequest ports req sub)
    refine ⟨h2.length.trans h1.length, fun p w h => h2.keeps p w (h1.keeps p w h), ?_⟩
    intro p w hn hs
    rw [List.foldl_cons] at hs
    cases hm : ((raiseRequest ports req sub)[p]?).join with
    | none =>
      have := h2.raised p w hm hs
      exact ⟨this.1, List.mem_cons_of_mem _ this.2⟩
    | some v =>
      have hv := h2.keeps p v hm
      rw [hs] at hv
      cases hv
      have := h1.raised p w hn hm
      exact ⟨this.1, List.mem_cons.mpr (Or.inl (List.mem_singleton.mp this.2))⟩

/-! ### The environment's move -/

/-- The environment's move touches nothing of the block. -/
theorem State.advance_sameBlock (s : State) : s.SameBlock s.advance := ⟨rfl, rfl, rfl, rfl, rfl, rfl, rfl, rfl⟩

@[simp] theorem State.advance_cfg (s : State) : s.advance.cfg = s.cfg := rfl
@[simp] theorem State.advance_phase (s : State) : s.advance.phase = s.phase := rfl
@[simp] theorem State.advance_cmd (s : State) : s.advance.cmd = s.cmd := rfl
@[simp] theorem State.advance_sidx (s : State) : s.advance.sidx = s.sidx := rfl
@[simp] theorem State.advance_buf (s : State) : s.advance.buf = s.buf := rfl
@[simp] theorem State.advance_rd (s : State) : s.advance.rd = s.rd := rfl
@[simp] theorem State.advance_fault (s : State) : s.advance.fault = s.fault := rfl
@[simp] theorem State.advance_sink (s : State) : s.advance.sink = s.sink := rfl
@[simp] theorem State.advance_command (s : State) : s.advance.command = s.command := rfl

/-- What the move does to the request slots. -/
theorem State.advance_raised (s : State) : Raised s.cfg.nPorts s.req s.advance.req s.nextMove.submits :=
  foldl_raiseRequest_raised _ _ _

/-- The number of ports does not change. -/
@[simp] theorem State.advance_ports (s : State) : s.advance.req.length = s.req.length := s.advance_raised.length

/-- A pending submission stays pending. -/
theorem State.reqAt_advance {s : State} {p : Nat} {w : CmdWord} (h : s.reqAt p = some w) :
    s.advance.reqAt p = some w :=
  s.advance_raised.keeps p w h

/-- A new submission is one of the move's, on a port of the machine. -/
theorem State.advance_reqAt_new {s : State} {p : Nat} {w : CmdWord} (h : s.reqAt p = none)
    (h' : s.advance.reqAt p = some w) : p < s.cfg.nPorts ∧ (p, w) ∈ s.nextMove.submits :=
  s.advance_raised.raised p w h h'

/-- The levels and the schedule after a scheduled move. -/
theorem State.advance_inputs {s : State} {mv : EnvMove} {rest : List EnvMove} (h : s.env = mv :: rest) :
    s.advance.rst = mv.rst ∧ s.advance.outReady = mv.outReady ∧ s.advance.sinkFail = mv.sinkFail ∧
      s.advance.arb = mv.arb ∧ s.advance.env = rest ∧ s.advance.freeIx = s.freeIx := by
  simp [State.advance, State.nextMove, State.dropMove, State.setInputs, h]

end Sys2Proof.Machine
end

