-- ==== Sys2Proof/Laws/Memory.lean ====
section
/-! SUPPORT. The buffer's laws: every operation keeps the canonical form, a read after an append, and the bytes of an
append. -/

namespace Sys2Proof.Machine

@[simp] theorem Memory.cellsFrom_nil (a : Nat) : Memory.cellsFrom a [] = [] := rfl

@[simp] theorem Memory.cellsFrom_cons (a : Nat) (v : Byte) (vs : List Byte) :
    Memory.cellsFrom a (v :: vs) = (a, v) :: Memory.cellsFrom (a + 1) vs := rfl

@[simp] theorem Memory.length_cellsFrom (a : Nat) (vs : List Byte) : (Memory.cellsFrom a vs).length = vs.length := by
  induction vs generalizing a with
  | nil => rfl
  | cons v vs ih => simp [ih]

theorem Memory.cellsFrom_append (a : Nat) (xs ys : List Byte) :
    Memory.cellsFrom a (xs ++ ys) = Memory.cellsFrom a xs ++ Memory.cellsFrom (a + xs.length) ys := by
  induction xs generalizing a with
  | nil => simp
  | cons x xs ih =>
    have : a + 1 + xs.length = a + (xs.length + 1) := by omega
    simp [ih, this]

@[simp] theorem Memory.bytes_cellsFrom (a : Nat) (vs : List Byte) : Memory.bytes (Memory.cellsFrom a vs) = vs := by
  induction vs generalizing a with
  | nil => rfl
  | cons v vs ih => simpa [Memory.bytes] using ih (a + 1)

@[simp] theorem Memory.length_bytes (m : Memory) : m.bytes.length = m.length := by simp [Memory.bytes]

@[simp] theorem Memory.bytes_append (m n : Memory) : Memory.bytes (m ++ n) = m.bytes ++ Memory.bytes n := by
  simp [Memory.bytes]

/-- The canonical form in closed form: a buffer is the cells of its bytes. -/
theorem Memory.wfFrom_iff (a : Nat) (m : Memory) : Memory.wfFrom a m = true ↔ m = Memory.cellsFrom a m.bytes := by
  induction m generalizing a with
  | nil => simp [Memory.wfFrom, Memory.bytes]
  | cons cell m ih =>
    obtain ⟨k, v⟩ := cell
    simp [Memory.wfFrom, Memory.bytes, ih]

theorem Memory.wf_iff (m : Memory) : m.wf = true ↔ m = Memory.cellsFrom 0 m.bytes := Memory.wfFrom_iff 0 m

/-- Equal byte sequences are equal data. -/
theorem Memory.eq_of_bytes_eq {m n : Memory} (hm : m.wf = true) (hn : n.wf = true) (h : m.bytes = n.bytes) : m = n := by
  rw [(Memory.wf_iff m).mp hm, (Memory.wf_iff n).mp hn, h]

theorem Memory.wf_nil : Memory.wf [] = true := rfl

/-- The memory after reset is canonical, under every configuration. -/
theorem Memory.wf_resetWith (cfg : Config) : (State.resetWith cfg).buf.wf = true := rfl

theorem Memory.wf_ofBytes (vs : List Byte) : (Memory.ofBytes vs).wf = true := by
  rw [Memory.wf_iff]; simp [Memory.ofBytes]

@[simp] theorem Memory.length_ofBytes (vs : List Byte) : (Memory.ofBytes vs).length = vs.length := by
  simp [Memory.ofBytes]

/-- The addresses of a buffer in canonical form rise strictly. -/
theorem Memory.wf_strictly_rising {m : Memory} (h : m.wf = true) : m.Pairwise fun x y => x.1 < y.1 := by
  have key : ∀ (vs : List Byte) (a : Nat),
      (Memory.cellsFrom a vs).Pairwise (fun x y => x.1 < y.1) ∧ ∀ c ∈ Memory.cellsFrom a vs, a ≤ c.1 := by
    intro vs
    induction vs with
    | nil => intro a; simp
    | cons v vs ih =>
      intro a
      have := ih (a + 1)
      refine ⟨List.pairwise_cons.mpr ⟨fun c hc => this.2 c hc, this.1⟩, ?_⟩
      intro c hc
      rcases List.mem_cons.mp hc with rfl | hc
      · exact Nat.le_refl _
      · exact Nat.le_of_succ_le (this.2 c hc)
  rw [(Memory.wf_iff m).mp h]
  exact (key _ 0).1

/-- `MemWrite` when it is defined: an append at the end, within the capacity. -/
theorem Memory.write_eq_some {m m' : Memory} {a : Nat} {vs : List Byte} {cap : Nat}
    (h : m.write a vs cap = some m') :
    a = m.length ∧ m.length + vs.length ≤ cap ∧ m' = m ++ Memory.cellsFrom a vs := by
  unfold Memory.write at h
  split at h
  · next hc => exact ⟨hc.1, hc.2, (Option.some.inj h).symm⟩
  · cases h

/-- `MemWrite` keeps the canonical form. -/
theorem Memory.write_wf {m m' : Memory} {a : Nat} {vs : List Byte} {cap : Nat} (hm : m.wf = true)
    (h : m.write a vs cap = some m') : m'.wf = true := by
  obtain ⟨rfl, -, rfl⟩ := Memory.write_eq_some h
  rw [Memory.wf_iff] at hm ⊢
  rw [Memory.bytes_append, Memory.bytes_cellsFrom, Memory.cellsFrom_append, ← hm]
  simp

theorem Memory.lookup_cellsFrom (a k : Nat) (vs : List Byte) :
    List.lookup k (Memory.cellsFrom a vs) = if a ≤ k then vs[k - a]? else none := by
  induction vs generalizing a with
  | nil => simp
  | cons v vs ih =>
    rw [Memory.cellsFrom_cons, List.lookup_cons]
    by_cases hk : k = a
    · subst hk; simp
    · have hb : (k == a) = false := by simpa using hk
      rw [hb]
      simp only [ih]
      by_cases hle : a + 1 ≤ k
      · have : k - a = (k - (a + 1)) + 1 := by omega
        simp [hle, Nat.le_of_succ_le hle, this]
      · have : ¬ a ≤ k := by omega
        simp [hle, this]

@[simp] theorem Memory.read_eq_lookup (m : Memory) (a : Nat) : m.read a = List.lookup a m := by
  unfold Memory.read Memory.unlisted; cases List.lookup a m <;> rfl

/-- Reading a buffer in canonical form is indexing its bytes. -/
theorem Memory.read_of_wf {m : Memory} (h : m.wf = true) (a : Nat) : m.read a = m.bytes[a]? := by
  rw [Memory.read_eq_lookup, (Memory.wf_iff m).mp h, Memory.lookup_cellsFrom]
  simp

/-- An append leaves every address outside the appended bytes as it was. -/
theorem Memory.read_append_frame (m : Memory) (a k : Nat) (vs : List Byte) (hk : k < a ∨ a + vs.length ≤ k) :
    Memory.read (m ++ Memory.cellsFrom a vs) k = m.read k := by
  simp only [Memory.read_eq_lookup, List.lookup_append, Memory.lookup_cellsFrom]
  have : (if a ≤ k then vs[k - a]? else none) = none := by
    split
    · exact List.getElem?_eq_none (by omega)
    · rfl
  rw [this, Option.or_none]

end Sys2Proof.Machine
end

