-- ==== Sys2Proof/Laws/PerInstr.lean ====
section
/-! SUPPORT. Statements about every instruction as syntax, one lemma a constructor. `WordFields`: the word of each
Command is legal and its three slices are its group, address and state (R70 to R76). -/

namespace Sys2Proof.Laws

/-- The word is legal, and its fields are the ordinals of the Command's group, address and state. -/
def WordFields.Statement (i : Instr) : Prop :=
  CmdWord.legal (encode i) = true ∧ (groupField (encode i)).toNat = i.command.group.ordinal ∧
    (addressField (encode i)).toNat = i.command.address.ordinal ∧
    (stateField (encode i)).toNat = i.command.state.toNat

theorem WordFields.a1On : WordFields.Statement .a1On := by unfold WordFields.Statement; decide
theorem WordFields.a1Off : WordFields.Statement .a1Off := by unfold WordFields.Statement; decide
theorem WordFields.a2On : WordFields.Statement .a2On := by unfold WordFields.Statement; decide
theorem WordFields.a2Off : WordFields.Statement .a2Off := by unfold WordFields.Statement; decide
theorem WordFields.a3On : WordFields.Statement .a3On := by unfold WordFields.Statement; decide
theorem WordFields.a3Off : WordFields.Statement .a3Off := by unfold WordFields.Statement; decide
theorem WordFields.b1On : WordFields.Statement .b1On := by unfold WordFields.Statement; decide
theorem WordFields.b1Off : WordFields.Statement .b1Off := by unfold WordFields.Statement; decide
theorem WordFields.b2On : WordFields.Statement .b2On := by unfold WordFields.Statement; decide
theorem WordFields.b2Off : WordFields.Statement .b2Off := by unfold WordFields.Statement; decide
theorem WordFields.b3On : WordFields.Statement .b3On := by unfold WordFields.Statement; decide
theorem WordFields.b3Off : WordFields.Statement .b3Off := by unfold WordFields.Statement; decide
theorem WordFields.c1On : WordFields.Statement .c1On := by unfold WordFields.Statement; decide
theorem WordFields.c1Off : WordFields.Statement .c1Off := by unfold WordFields.Statement; decide
theorem WordFields.c2On : WordFields.Statement .c2On := by unfold WordFields.Statement; decide
theorem WordFields.c2Off : WordFields.Statement .c2Off := by unfold WordFields.Statement; decide
theorem WordFields.c3On : WordFields.Statement .c3On := by unfold WordFields.Statement; decide
theorem WordFields.c3Off : WordFields.Statement .c3Off := by unfold WordFields.Statement; decide
theorem WordFields.d1On : WordFields.Statement .d1On := by unfold WordFields.Statement; decide
theorem WordFields.d1Off : WordFields.Statement .d1Off := by unfold WordFields.Statement; decide
theorem WordFields.d2On : WordFields.Statement .d2On := by unfold WordFields.Statement; decide
theorem WordFields.d2Off : WordFields.Statement .d2Off := by unfold WordFields.Statement; decide
theorem WordFields.d3On : WordFields.Statement .d3On := by unfold WordFields.Statement; decide
theorem WordFields.d3Off : WordFields.Statement .d3Off := by unfold WordFields.Statement; decide

end Sys2Proof.Laws
end

