-- ==== Sys2Proof/Laws/Step.lean ====
section
/-! SUPPORT. What each shared operation and each step can do, said once: every Command is its word run by the shared
meaning; synthesize and drain have one case each per outcome; a step that goes on is a reset step or one of the block's
transitions, followed by the environment's move. -/

namespace Sys2Proof.Machine

/-- Every arm of exec is the shared meaning on the word of its instruction. -/
theorem exec_eq_runCommand (i : Instr) (s : State) : exec i s = s.runCommand (encode i) := by
  cases i <;> rfl

/-! ### The shared meaning, phase by phase -/

theorem State.runCommand_idle_some {s : State} {w : CmdWord} {p : Nat} (h : s.phase = .idle)
    (hp : s.portOf w = some p) : s.runCommand w = .next (s.accept p w) := by
  simp [State.runCommand, h, hp]

theorem State.runCommand_idle_none {s : State} {w : CmdWord} (h : s.phase = .idle) (hp : s.portOf w = none) :
    s.runCommand w = .next s := by
  simp [State.runCommand, h, hp]

theorem State.runCommand_synth {s : State} {w : CmdWord} (h : s.phase = .synth) : s.runCommand w = s.synthesize := by
  simp [State.runCommand, h]

theorem State.runCommand_drain {s : State} {w : CmdWord} (h : s.phase = .drain) : s.runCommand w = s.drain := by
  simp [State.runCommand, h]

theorem State.runCommand_halt {s : State} {w : CmdWord} (h : s.phase = .halt) : s.runCommand w = .next s := by
  simp [State.runCommand, h]

/-! ### Synthesize -/

/-- The state after one synthesize step of the Command `c`. -/
def State.afterSynth (s : State) (c : Command) : State :=
  { s with
    buf := s.buf ++ Memory.cellsFrom (2 * s.sidx) (sampleAt s.cfg c s.sidx).bytes
    sidx := s.sidx + 1
    phase := if s.sidx + 1 = s.cfg.txSamples then .drain else .synth }

@[simp] theorem Sample.length_bytes (x : Sample) : x.bytes.length = 2 := by cases x <;> rfl

/-- Synthesize goes on exactly where its preconditions hold. -/
theorem State.synthesize_eq_next {s : State} {c : Command} (hc : s.command = some c)
    (hlen : s.buf.length = 2 * s.sidx) (hlt : s.sidx < s.cfg.txSamples) :
    s.synthesize = .next (s.afterSynth c) := by
  have hw : s.buf.write s.appendAddress (sampleAt s.cfg c s.sidx).bytes s.cfg.txBytes
      = some (s.buf ++ Memory.cellsFrom (2 * s.sidx) (sampleAt s.cfg c s.sidx).bytes) := by
    unfold Memory.write State.appendAddress Config.txBytes
    rw [if_pos]
    simp only [Sample.length_bytes]
    omega
  simp [State.synthesize, hc, hw, State.afterSynth]

theorem State.synthesize_cases {s t : State} (h : s.synthesize = .next t) :
    ∃ c, s.command = some c ∧ s.buf.length = 2 * s.sidx ∧ s.sidx < s.cfg.txSamples ∧ t = s.afterSynth c := by
  cases hc : s.command with
  | none => simp [State.synthesize, hc] at h
  | some c =>
    simp only [State.synthesize, hc] at h
    split at h
    · cases h
    · next m hm =>
      obtain ⟨ha, hcap, rfl⟩ := Memory.write_eq_some hm
      simp only [State.appendAddress, Sample.length_bytes, Config.txBytes] at ha hcap
      refine ⟨c, rfl, ha.symm, by omega, ?_⟩
      cases h
      simp [State.afterSynth, State.appendAddress]

/-! ### Drain -/

theorem State.drainable_iff (s : State) :
    s.drainable = true ↔ s.rd < s.cfg.txBytes ∧ s.buf.length = s.cfg.txBytes := by
  simp [State.drainable]

/-- A byte that is not the last. -/
theorem State.drainByte_of_more {s : State} {v : Byte} (hlen : s.buf.length = s.cfg.txBytes)
    (hv : s.buf.read s.rd = some v) (hlt : s.rd + 1 < s.cfg.txBytes) :
    s.drainByte = .next { s.sinkWrite v with rd := s.rd + 1 } := by
  have hd : s.drainable = true := s.drainable_iff.mpr ⟨by omega, hlen⟩
  simp only [State.drainByte, hv, hd, hlt, if_true]

/-- The last byte. -/
theorem State.drainByte_of_last {s : State} {v : Byte} (hlen : s.buf.length = s.cfg.txBytes)
    (hv : s.buf.read s.rd = some v) (hlast : s.rd + 1 = s.cfg.txBytes) :
    s.drainByte = .next (s.sinkWrite v).endDrain := by
  have hd : s.drainable = true := s.drainable_iff.mpr ⟨by omega, hlen⟩
  have : ¬ s.rd + 1 < s.cfg.txBytes := by omega
  simp only [State.drainByte, hv, hd, this, if_true, if_false]

theorem State.drainByte_cases {s t : State} (h : s.drainByte = .next t) :
    ∃ v, s.buf.read s.rd = some v ∧ s.buf.length = s.cfg.txBytes ∧
      ((s.rd + 1 < s.cfg.txBytes ∧ t = { s.sinkWrite v with rd := s.rd + 1 }) ∨
        (s.rd + 1 = s.cfg.txBytes ∧ t = (s.sinkWrite v).endDrain)) := by
  cases hv : s.buf.read s.rd with
  | none => simp only [State.drainByte, hv] at h; cases h
  | some v =>
    simp only [State.drainByte, hv] at h
    by_cases hd : s.drainable = true
    · have := s.drainable_iff.mp hd
      rw [if_pos hd] at h
      by_cases hm : s.rd + 1 < s.cfg.txBytes
      · rw [if_pos hm] at h
        exact ⟨v, rfl, this.2, Or.inl ⟨hm, (by cases h; rfl)⟩⟩
      · rw [if_neg hm] at h
        exact ⟨v, rfl, this.2, Or.inr ⟨by omega, (by cases h; rfl)⟩⟩
    · rw [if_neg hd] at h
      cases h

/-! ### One step -/

/-- The block's transitions and its waits (R182, R188), each with what enables it. -/
inductive State.Transition (s : State) : State → Prop where
  | accept (p : Nat) (w : CmdWord) (i : Instr) (hphase : s.phase = .idle) (hgrant : s.granted = some p)
      (hword : s.reqAt p = some w) (hdecode : decode w = some i) : s.Transition (s.accept p w)
  | synthesize (c : Command) (hphase : s.phase = .synth) (hcmd : s.command = some c)
      (hlen : s.buf.length = 2 * s.sidx) (hlt : s.sidx < s.cfg.txSamples) : s.Transition (s.afterSynth c)
  | deliver (v : Byte) (hphase : s.phase = .drain) (hready : s.outReady = true) (hfail : s.sinkFail = false)
      (hread : s.buf.read s.rd = some v) (hlen : s.buf.length = s.cfg.txBytes) (hlt : s.rd + 1 < s.cfg.txBytes) :
      s.Transition { s.sinkWrite v with rd := s.rd + 1 }
  | lastByte (v : Byte) (hphase : s.phase = .drain) (hready : s.outReady = true) (hfail : s.sinkFail = false)
      (hread : s.buf.read s.rd = some v) (hlen : s.buf.length = s.cfg.txBytes) (hlast : s.rd + 1 = s.cfg.txBytes) :
      s.Transition (s.sinkWrite v).endDrain
  | sinkFault (hphase : s.phase = .drain) (hfail : s.sinkFail = true) : s.Transition s.raiseSinkFault
  | nothingPending (hphase : s.phase = .idle) (hnone : ∀ p, p < s.cfg.nPorts → s.reqAt p = none) : s.Transition s
  | slowSink (hphase : s.phase = .drain) (hready : s.outReady = false) (hfail : s.sinkFail = false) : s.Transition s
  | halted (hphase : s.phase = .halt) : s.Transition s

/-- A ready sink that does not fail takes a byte (R186). -/
theorem State.drain_of_ready {s : State} (hr : s.outReady = true) (hf : s.sinkFail = false) :
    s.drain = s.drainByte := by
  simp [State.drain, hf, hr]

/-- A sink that is only slow makes the block wait (R188). -/
theorem State.drain_of_slow {s : State} (hr : s.outReady = false) (hf : s.sinkFail = false) : s.drain = .next s := by
  simp [State.drain, hf, hr]

/-- A failing sink is the fault entry, whatever its readiness (R203). -/
theorem State.drain_of_fail {s : State} (hf : s.sinkFail = true) : s.drain = .next s.raiseSinkFault := by
  simp [State.drain, hf]

theorem State.drain_cases {s t : State} (hphase : s.phase = .drain) (h : s.drain = .next t) : s.Transition t := by
  unfold State.drain at h
  cases hf : s.sinkFail with
  | true =>
    simp only [hf, if_true] at h
    cases h
    exact .sinkFault hphase hf
  | false =>
    cases hr : s.outReady with
    | true =>
      simp only [hf, hr, if_true] at h
      obtain ⟨v, hv, hlen, ⟨hlt, rfl⟩ | ⟨hlast, rfl⟩⟩ := State.drainByte_cases h
      · exact .deliver v hphase hr hf hv hlen hlt
      · exact .lastByte v hphase hr hf hv hlen hlast
    | false =>
      simp only [hf, hr] at h
      cases h
      exact .slowSink hphase hr hf

theorem thenAdvance_eq_next {o : Host.Outcome State Fault Refusal} {t : State} (h : thenAdvance o = .next t) :
    ∃ u, o = .next u ∧ t = u.advance := by
  cases o with
  | next u => exact ⟨u, rfl, by cases h; rfl⟩
  | fault f => cases h
  | refused r => cases h

/-- A step is defined only in a legal configuration. -/
theorem step_of_illegal {s : State} (h : s.cfg.wf = false) : step s = .refused .illegalConfig := by
  simp [step, h]

theorem step_of_rst {s : State} (hc : s.cfg.wf = true) (h : s.rst = true) : step s = .next s.resetStep.advance := by
  simp [step, hc, h, thenAdvance]

theorem step_of_fetch_none {s : State} (hc : s.cfg.wf = true) (h : s.rst = false) (hf : s.fetch = none) :
    step s = .next s.advance := by
  simp [step, hc, h, hf, thenAdvance]

theorem step_of_decode_none {s : State} {w : CmdWord} (hc : s.cfg.wf = true) (h : s.rst = false)
    (hf : s.fetch = some w) (hd : decode w = none) : step s = .refused (.reservedWord w) := by
  simp [step, hc, h, hf, hd]

theorem step_of_decode_some {s : State} {w : CmdWord} {i : Instr} (hc : s.cfg.wf = true) (h : s.rst = false)
    (hf : s.fetch = some w) (hd : decode w = some i) : step s = thenAdvance (exec i s) := by
  simp [step, hc, h, hf, hd]

/-- A word that decodes is the word of what it decodes to. -/
theorem encode_of_decode {w : CmdWord} {i : Instr} (h : decode w = some i) : encode i = w := by
  rw [decode_eq_map] at h
  obtain ⟨c, hc, rfl⟩ := Option.map_eq_some_iff.mp h
  have := encodeCommand_of_decodeCommand w
  rw [hc] at this
  simpa [encode] using this

/-- The Command in transmission is the one its word decodes to. -/
theorem State.command_of_decode {s : State} {i : Instr} (h : decode s.cmd = some i) : s.command = some i.command := by
  simp [State.command, h]

/-- Everything a step that goes on can have done: a reset step or a transition, and then the environment's move. -/
theorem step_cases {s t : State} (h : step s = .next t) :
    s.cfg.wf = true ∧
      ((s.rst = true ∧ t = s.resetStep.advance) ∨ (s.rst = false ∧ ∃ u, s.Transition u ∧ t = u.advance)) := by
  cases hc : s.cfg.wf with
  | false => rw [step_of_illegal hc] at h; cases h
  | true =>
    refine ⟨rfl, ?_⟩
    cases hr : s.rst with
    | true =>
      rw [step_of_rst hc hr] at h
      cases h
      exact Or.inl ⟨rfl, rfl⟩
    | false =>
      refine Or.inr ⟨rfl, ?_⟩
      cases hf : s.fetch with
      | none =>
        rw [step_of_fetch_none hc hr hf] at h
        cases h
        refine ⟨s, ?_, rfl⟩
        cases hp : s.phase with
        | idle =>
          cases hg : s.granted with
          | some p =>
            obtain ⟨-, w, i, hw, -⟩ := State.granted_spec hg
            rw [State.fetch_idle_granted hp hg, hw] at hf
            cases hf
          | none =>
            rw [State.fetch_idle_none hp hg, List.findSome?_eq_none_iff] at hf
            exact .nothingPending hp fun p hlt => hf p ((s.mem_portOrder p).mpr hlt)
        | synth => rw [State.fetch_synth hp] at hf; cases hf
        | drain => rw [State.fetch_drain hp] at hf; cases hf
        | halt => exact .halted hp
      | some w =>
        cases hd : decode w with
        | none => rw [step_of_decode_none hc hr hf hd] at h; cases h
        | some i =>
          rw [step_of_decode_some hc hr hf hd] at h
          obtain ⟨u, hu, rfl⟩ := thenAdvance_eq_next h
          refine ⟨u, ?_, rfl⟩
          rw [exec_eq_runCommand, encode_of_decode hd] at hu
          cases hp : s.phase with
          | idle =>
            cases hg : s.granted with
            | none =>
              have := (State.fetch_idle_reserved hp hg hf).1
              rw [hd] at this
              cases this
            | some p =>
              have hw : s.reqAt p = some w := by rw [← State.fetch_idle_granted hp hg]; exact hf
              rw [State.runCommand_idle_some hp (State.portOf_of_granted hg hw)] at hu
              cases hu
              exact .accept p w i hp hg hw hd
          | synth =>
            rw [State.runCommand_synth hp] at hu
            obtain ⟨c, hcm, hlen, hlt, rfl⟩ := State.synthesize_cases hu
            exact .synthesize c hp hcm hlen hlt
          | drain =>
            rw [State.runCommand_drain hp] at hu
            exact State.drain_cases hp hu
          | halt =>
            rw [State.runCommand_halt hp] at hu
            cases hu
            exact .halted hp

end Sys2Proof.Machine
end

