-- ==== Sys2Proof/Laws/Wave.lean ====
section
/-! SUPPORT. Arithmetic of the run lengths, and the lengths of the pieces a transmission is built from. -/

namespace Sys2Proof

theorem Config.wf_iff (c : Config) :
    c.wf = true ↔ 1 ≤ c.bitRate ∧ 4 * c.bitRate ≤ c.sampleRate ∧ 1 ≤ c.flushLen ∧ 1 ≤ c.nPorts := by
  simp [Config.wf, and_assoc]

theorem Config.short_le_symLen (c : Config) : c.short ≤ c.symLen := by
  unfold Config.short; omega

/-- The two runs of a bit fill the slot, in every configuration (R146). -/
@[simp] theorem Config.short_add_long (c : Config) : c.short + c.long = c.symLen := by
  have := c.short_le_symLen
  unfold Config.long; omega

/-- A legal configuration has at least four samples a bit (R142). -/
theorem Config.four_le_symLen {c : Config} (h : c.wf = true) : 4 ≤ c.symLen := by
  obtain ⟨h1, h2, -, -⟩ := c.wf_iff.mp h
  unfold Config.symLen
  exact (Nat.le_div_iff_mul_le h1).mpr h2

theorem Config.pulse_add_pause (c : Config) (v : Bool) : c.pulseLength v + c.pauseLength v = c.symLen := by
  have := c.short_add_long
  cases v
  · simp [Config.pulseLength, Config.pauseLength]
  · simp [Config.pulseLength, Config.pauseLength]; omega

@[simp] theorem length_fullRun (n : Nat) : (fullRun n).length = n := by simp [fullRun]

@[simp] theorem length_zeroRun (n : Nat) : (zeroRun n).length = n := by simp [zeroRun]

@[simp] theorem length_bitSamples (c : Config) (v : Bool) : (bitSamples c v).length = c.symLen := by
  simp [bitSamples, c.pulse_add_pause]

@[simp] theorem body_nil (c : Config) : body c [] = [] := rfl

@[simp] theorem body_cons (c : Config) (v : Bool) (bs : List Bool) : body c (v :: bs) = bitSamples c v ++ body c bs :=
  rfl

@[simp] theorem length_body (c : Config) (bs : List Bool) : (body c bs).length = bs.length * c.symLen := by
  induction bs with
  | nil => simp
  | cons v bs ih => simp [ih, Nat.succ_mul, Nat.add_comm]

@[simp] theorem length_bitString (cmd : Command) : (bitString cmd).length = nBits := by
  rcases cmd with ⟨_ | _ | _ | _, _ | _ | _, _ | _⟩ <;> rfl

@[simp] theorem length_separator (c : Config) : (separator c).length = c.symLen + c.blankLen := by
  simp [separator]

theorem length_body_bitString (c : Config) (cmd : Command) : (body c (bitString cmd)).length = c.bodyLen := by
  simp [Config.bodyLen]

/-- The one-line form of R165: five repetitions with separators, the final body, the flush runs around them. -/
theorem txs_eq (c : Config) (cmd : Command) :
    txs c cmd = zeroRun c.flushLen
      ++ ((List.replicate 5 (body c (bitString cmd) ++ separator c)).flatten ++ body c (bitString cmd))
      ++ zeroRun c.flushLen := by
  simp [txs, nTx, repeats, repetition, List.range_succ, List.replicate]

@[simp] theorem Sample.bytes_length (x : Sample) : x.bytes.length = 2 := by cases x <;> rfl

@[simp] theorem bytesOf_nil : bytesOf [] = [] := rfl

@[simp] theorem bytesOf_cons (x : Sample) (xs : List Sample) : bytesOf (x :: xs) = x.bytes ++ bytesOf xs := rfl

@[simp] theorem bytesOf_append (xs ys : List Sample) : bytesOf (xs ++ ys) = bytesOf xs ++ bytesOf ys := by
  simp [bytesOf]

@[simp] theorem length_bytesOf (xs : List Sample) : (bytesOf xs).length = 2 * xs.length := by
  induction xs with
  | nil => rfl
  | cons x xs ih => simp [ih]; omega

/-- An element of a list repeated whole. -/
theorem getElem?_flatten_replicate {α : Type} (l : List α) (k n : Nat) (h : n < k * l.length) :
    (List.replicate k l).flatten[n]? = l[n % l.length]? := by
  induction k generalizing n with
  | zero => omega
  | succ k ih =>
    rw [List.replicate_succ, List.flatten_cons]
    by_cases hn : n < l.length
    · rw [List.getElem?_append_left hn, Nat.mod_eq_of_lt hn]
    · have hge : l.length ≤ n := by omega
      rw [List.getElem?_append_right hge, ih _ (by rw [Nat.succ_mul] at h; omega), ← Nat.mod_eq_sub_mod hge]

end Sys2Proof
end

