-- ==== Sys2Proof/Tests/Slice0.lean ====
section
/-! SUPPORT. The model's own tests: ill-formed terms refused, decoding of words written out from the spec's encodings,
single steps against 95_test_vectors.md (cited as V-…), and for each statement with hypotheses a witness that meets them.
Every expected value is the spec's. -/

namespace Sys2Proof.Tests

open Sys2Proof.Machine

/-! ### Builders -/

/-- SMALL of the test vectors, with two ports. -/
def smallCfg : Config := ⟨10, 1, 4, 2⟩

/-- MIN of the test vectors, with two ports. -/
def minCfg : Config := ⟨4, 1, 1, 2⟩

/-- A move that leaves every input low. -/
def quiet : EnvMove := ⟨false, false, false, 0, []⟩

/-- A move after which the sink is ready. -/
def ready : EnvMove := ⟨false, true, false, 0, []⟩

/-- `A1+` -/
def cmdA1On : Command := ⟨.a, .one, true⟩

/-- IDLE with these submissions pending. -/
def idleSt (req : List (Option CmdWord)) : State := { State.resetWith smallCfg with req := req, env := [quiet] }

/-- SYNTH of `A1+` with `n` samples in the buffer. -/
def synthSt (cfg : Config) (n : Nat) : State :=
  { State.resetWith cfg with
    phase := .synth, cmd := 0b00001#5, sidx := n, buf := Memory.ofBytes (bytesOf ((txs cfg cmdA1On).take n))
    env := [quiet] }

/-- DRAIN of `A1+` with `rd` bytes delivered, in MIN. -/
def drainSt (rd : Nat) (ready fail : Bool) : State :=
  { State.resetWith minCfg with
    phase := .drain, cmd := 0b00001#5, sidx := 728, buf := Memory.ofBytes (tx minCfg cmdA1On), rd := rd
    sink := (tx minCfg cmdA1On).take rd, outReady := ready, sinkFail := fail, env := [quiet] }

/-- HALT with `A1-` pending on port 0. -/
def haltSt : State :=
  { State.resetWith smallCfg with phase := .halt, fault := .sinkFault, req := [some 0b00000#5, none], env := [quiet] }

/-- What a function says of the next state; none at a stop. -/
def onNext {α : Type} (o : Host.Outcome State Fault Refusal) (f : State → α) : Option α :=
  match o with
  | .next t => some (f t)
  | .fault _ => none
  | .refused _ => none

/-- The refusal, where the outcome is one. -/
def refusalOf (o : Host.Outcome State Fault Refusal) : Option Refusal :=
  match o with
  | .next _ => none
  | .fault _ => none
  | .refused r => some r

theorem exists_next_of_onNext {o : Host.Outcome State Fault Refusal} (h : onNext o (fun _ => true) = some true) :
    ∃ t, o = .next t := by
  cases o with
  | next t => exact ⟨t, rfl⟩
  | fault f => cases h
  | refused r => cases h

/-! ### Well-formedness: an ill-formed term for each check -/

theorem test_reserved_address_field_is_ill_formed : CmdWord.legal 0b00110#5 = false := by decide

/-- V-X7: `SHORT` would be 0, and `BIT_RATE = 0` with any sample rate. -/
theorem test_bad_rates_are_ill_formed :
    Config.wf ⟨7, 2, 1, 1⟩ = false ∧ Config.wf ⟨3, 1, 1, 1⟩ = false ∧ Config.wf ⟨750, 751, 1, 1⟩ = false ∧
      Config.wf ⟨4, 0, 1, 1⟩ = false := by decide

theorem test_zero_flush_length_is_ill_formed : Config.wf ⟨4, 1, 0, 1⟩ = false := by decide

theorem test_zero_ports_is_ill_formed : Config.wf ⟨4, 1, 1, 0⟩ = false := by decide

/-! ### Decoding of words written out from R70 to R75: group, address, state -/

theorem test_decode_group_a :
    decode 0b00001#5 = some .a1On ∧ decode 0b00000#5 = some .a1Off ∧
      decode 0b00011#5 = some .a2On ∧ decode 0b00010#5 = some .a2Off ∧
      decode 0b00101#5 = some .a3On ∧ decode 0b00100#5 = some .a3Off := by
  decide

theorem test_decode_group_b :
    decode 0b01001#5 = some .b1On ∧ decode 0b01000#5 = some .b1Off ∧
      decode 0b01011#5 = some .b2On ∧ decode 0b01010#5 = some .b2Off ∧
      decode 0b01101#5 = some .b3On ∧ decode 0b01100#5 = some .b3Off := by
  decide

theorem test_decode_group_c :
    decode 0b10001#5 = some .c1On ∧ decode 0b10000#5 = some .c1Off ∧
      decode 0b10011#5 = some .c2On ∧ decode 0b10010#5 = some .c2Off ∧
      decode 0b10101#5 = some .c3On ∧ decode 0b10100#5 = some .c3Off := by
  decide

theorem test_decode_group_d :
    decode 0b11001#5 = some .d1On ∧ decode 0b11000#5 = some .d1Off ∧
      decode 0b11011#5 = some .d2On ∧ decode 0b11010#5 = some .d2Off ∧
      decode 0b11101#5 = some .d3On ∧ decode 0b11100#5 = some .d3Off := by
  decide

/-- R77, and a number above the five bits of a word (log 15). -/
theorem test_reserved_words_do_not_decode :
    decode 0b00110#5 = none ∧ decode 0b01111#5 = none ∧ decode 0b10110#5 = none ∧ decode 0b11111#5 = none ∧
      decodeTableWord 8 0x01 = some .a1On ∧ decodeTableWord 8 0x06 = none ∧ decodeTableWord 8 0x21 = none := by decide

/-- §6's examples: `E1+` is rejected; `C2+` is the word `10011`. -/
theorem test_identifiers :
    ofIdentifier ['E', '1', '+'] = none ∧ ofIdentifier ['A', '4', '+'] = none ∧ ofIdentifier ['A', '1'] = none ∧
      (ofIdentifier ['C', '2', '+']).map encode = some 0b10011#5 := by decide

/-! ### Encoder, modulator and framing -/

/-- V-E3. -/
theorem test_single_bits :
    (bitString ⟨.a, .one, true⟩)[3]? = some true ∧ (bitString ⟨.a, .one, false⟩)[22]? = some false ∧
      (bitString ⟨.b, .two, false⟩)[3]? = some false ∧ (bitString ⟨.b, .two, false⟩)[11]? = some false ∧
      (bitString ⟨.d, .three, true⟩)[7]? = some false ∧ (bitString ⟨.d, .three, true⟩)[9]? = some true ∧
      (bitString ⟨.c, .two, true⟩)[5]? = some false := by decide

/-- V-P1, the row 48000 / 751, and V-F8's largest flush length for a 16-bit SIDX. -/
theorem test_derived_constants :
    Config.symLen ⟨48000, 751, 1, 1⟩ = 63 ∧ Config.short ⟨48000, 751, 1, 1⟩ = 18 ∧
      Config.long ⟨48000, 751, 1, 1⟩ = 45 ∧ Config.blankLen ⟨48000, 751, 1, 1⟩ = 409 ∧
      Config.txSamples ⟨150000, 751, 14709, 1⟩ = 65534 := by decide

/-- V-P2, SMALL: `bit(0)` is `F3 Z7`, `bit(1)` is `F7 Z3`. -/
theorem test_one_bit :
    bitSamples smallCfg false = [.full, .full, .full] ++ List.replicate 7 .zero ∧
      bitSamples smallCfg true = List.replicate 7 .full ++ [.zero, .zero, .zero] := by decide

/-- V-P3, REF at the edges of the pulses. -/
theorem test_bit_sample_edges :
    bitSampleAt Config.reference false 58 = .full ∧ bitSampleAt Config.reference false 59 = .zero ∧
      bitSampleAt Config.reference true 139 = .full ∧ bitSampleAt Config.reference true 140 = .zero := by decide

/-- V-F3, REF: flush, the first pulse, bit 3, the continuation bit, the gap and repetition 1. -/
theorem test_reference_samples :
    ([999, 1000, 1058, 1059, 1736, 1737, 5716, 5717, 5776, 5834, 5835, 7267, 7268, 7327, 37115, 38115].map
        (sampleAt Config.reference cmdA1On))
      = [.zero, .full, .full, .zero, .full, .zero, .full, .zero, .full, .full, .zero, .zero, .full, .zero, .zero,
          .zero] := by decide

/-- V-F4, SMALL, and V-F6, MIN: the transmission as the algorithm builds it. -/
theorem test_transmission_samples :
    [3, 4, 6, 7, 40, 41, 243, 244, 246, 247, 318, 319, 500, 1818].map (fun n => (txs smallCfg cmdA1On)[n]?)
      = [some .zero, some .full, some .full, some .zero, some .full, some .zero, some .zero, some .full, some .full,
          some .zero, some .zero, some .full, some .full, some .zero] ∧
      [96, 97, 98, 126, 127, 128].map (fun n => (txs minCfg cmdA1On)[n]?)
        = [some .zero, some .full, some .zero, some .zero, some .full, some .zero] := by decide +kernel

/-- V-F7: the count of bytes equal to 255, on and off, in MIN. -/
theorem test_full_amplitude_counts :
    (tx minCfg ⟨.a, .one, true⟩).count 255#8 = 281 ∧ (tx minCfg ⟨.a, .one, false⟩).count 255#8 = 257 := by
  decide +kernel

/-! ### Each Command's arm: in IDLE it takes the word the table gives it, and no other -/

/-- With the word pending on port 1, the Command takes exactly it. -/
def takes (i : Instr) (w : CmdWord) : Bool :=
  onNext (exec i (idleSt [none, some w])) (fun t => (t.cmd, t.phase, t.req)) == some (w, .synth, [none, none])

/-- The accept step of the six Commands of group A (R183). -/
theorem test_accept_group_a :
    takes .a1On 0b00001#5 = true ∧ takes .a1Off 0b00000#5 = true ∧
      takes .a2On 0b00011#5 = true ∧ takes .a2Off 0b00010#5 = true ∧
      takes .a3On 0b00101#5 = true ∧ takes .a3Off 0b00100#5 = true := by
  decide

/-- The accept step of the six Commands of group B (R183). -/
theorem test_accept_group_b :
    takes .b1On 0b01001#5 = true ∧ takes .b1Off 0b01000#5 = true ∧
      takes .b2On 0b01011#5 = true ∧ takes .b2Off 0b01010#5 = true ∧
      takes .b3On 0b01101#5 = true ∧ takes .b3Off 0b01100#5 = true := by
  decide

/-- The accept step of the six Commands of group C (R183). -/
theorem test_accept_group_c :
    takes .c1On 0b10001#5 = true ∧ takes .c1Off 0b10000#5 = true ∧
      takes .c2On 0b10011#5 = true ∧ takes .c2Off 0b10010#5 = true ∧
      takes .c3On 0b10101#5 = true ∧ takes .c3Off 0b10100#5 = true := by
  decide

/-- The accept step of the six Commands of group D (R183). -/
theorem test_accept_group_d :
    takes .d1On 0b11001#5 = true ∧ takes .d1Off 0b11000#5 = true ∧
      takes .d2On 0b11011#5 = true ∧ takes .d2Off 0b11010#5 = true ∧
      takes .d3On 0b11101#5 = true ∧ takes .d3Off 0b11100#5 = true := by
  decide

/-- A Command that is not presented is not accepted. -/
theorem test_accept_needs_its_word :
    onNext (exec .a1Off (idleSt [some 0b00001#5, none])) (fun t => (t.phase, t.req))
      = some (.idle, [some 0b00001#5, none]) := by decide

/-! ### Steps -/

/-- V-Q1, with the ports in that step. -/
theorem test_step_accepts :
    onNext (step (idleSt [some 0b00001#5, none])) (fun t => (t.cmd, t.sidx, t.phase, t.req))
        = some (0b00001#5, 0, .synth, [none, none]) ∧
      (idleSt [some 0b00001#5, none]).reqReady 0 = true ∧ (idleSt [some 0b00001#5, none]).reqReady 1 = false := by
  decide

/-- V-Q2: both grants are possible. -/
theorem test_step_grants_either_port :
    onNext (step (idleSt [some 0x0A#5, some 0x1D#5])) (fun t => (t.cmd, t.req)) = some (0x0A#5, [none, some 0x1D#5]) ∧
      onNext (step { idleSt [some 0x0A#5, some 0x1D#5] with arb := 1 }) (fun t => (t.cmd, t.req))
        = some (0x1D#5, [some 0x0A#5, none]) := by decide

/-- V-Q4: the last flush sample, then the first of a pulse. -/
theorem test_step_synthesizes :
    onNext (step (synthSt smallCfg 3)) (fun t => (t.buf.drop 6, t.sidx, t.phase))
        = some ([(6, 127#8), (7, 127#8)], 4, .synth) ∧
      onNext (step (synthSt smallCfg 4)) (fun t => (t.buf.drop 8, t.sidx, t.phase))
        = some ([(8, 255#8), (9, 127#8)], 5, .synth) := by decide +kernel

/-- V-Q4's last sample, in MIN. -/
theorem test_last_sample_enters_drain :
    onNext (step (synthSt minCfg 727)) (fun t => (t.buf.drop 1454, t.sidx, t.phase, t.rd))
      = some ([(1454, 127#8), (1455, 127#8)], 728, .drain, 0) := by decide +kernel

/-- V-Q5, in MIN: sample 1 is the first full-amplitude one, its I byte is BUF[2]. -/
theorem test_step_drains :
    (drainSt 2 true false).outValid = true ∧ (drainSt 2 true false).outData = 255#8 ∧
      onNext (step (drainSt 2 true false)) (fun t => (t.sink.drop 2, t.rd, t.phase)) = some ([255#8], 3, .drain) := by
  decide +kernel

/-- V-Q5: a sink that is not ready, and the last byte. -/
theorem test_stall_and_end_of_drain :
    onNext (step (drainSt 2 false false)) (fun t => (t.sink.drop 2, t.rd, t.phase)) = some ([], 2, .drain) ∧
      onNext (step (drainSt 1455 true false)) (fun t => (t.sink.drop 1455, t.buf, t.rd, t.phase))
        = some ([127#8], [], 0, .idle) := by decide +kernel

/-- V-X1 and V-X8: the fault wins over a ready sink. -/
theorem test_sink_fault :
    onNext (exec .a1On (drainSt 100 true true)) (fun t => (t.fault, t.phase, t.sink.length, t.outValid))
      = some (.sinkFault, .halt, 100, false) := by decide +kernel

/-- V-X2: `sink_fail` outside DRAIN. -/
theorem test_sink_fail_ignored_in_synth :
    onNext (step { synthSt smallCfg 10 with sinkFail := true }) (fun t => (t.sidx, t.phase, t.fault))
      = some (11, .synth, .none) := by decide +kernel

/-- V-X3. -/
theorem test_halt_stays :
    onNext (step haltSt) (fun t => (t.phase, t.fault, t.req)) = some (.halt, .sinkFault, [some 0b00000#5, none]) := by
  decide

/-- V-X4. -/
theorem test_reset_leaves_halt :
    onNext (step { haltSt with rst := true }) (fun t => (t.phase, t.fault, t.buf.length, t.req))
      = some (.idle, .none, 0, [some 0b00000#5, none]) := by decide

/-- V-X5. -/
theorem test_reset_beats_accept :
    onNext (step { idleSt [some 0b00001#5, none] with rst := true }) (fun t => (t.phase, t.rd, t.sidx, t.req))
        = some (.idle, 0, 0, [some 0b00001#5, none]) ∧
      ({ idleSt [some 0b00001#5, none] with rst := true } : State).reqReady 0 = false := by decide

/-- V-X6. -/
theorem test_reserved_word :
    refusalOf (step (idleSt [some 0b00110#5, none])) = some (.reservedWord 0b00110#5) ∧
      onNext (step (idleSt [some 0b00110#5, some 0b00001#5])) (fun t => (t.cmd, t.req))
        = some (0b00001#5, [some 0b00110#5, none]) := by decide

/-- V-X7. -/
theorem test_illegal_configuration :
    refusalOf (step { idleSt [none, none] with cfg := ⟨7, 2, 4, 2⟩ }) = some .illegalConfig := by decide

/-- The host's placement: the word on port 0 is the one the next step runs. -/
theorem test_placed_word_runs :
    onNext (step (State.reset.withFetchWord 8 0x1D)) (fun t => (t.cmd, t.phase)) = some (0b11101#5, .synth) ∧
      (State.reset.withFetchWord 8 0x1D).fetch = some 0b11101#5 := by decide

/-! ### States of the invariant in each phase, and steps that go on from them -/

theorem exists_next_step {s : State} (h : onNext (step s) (fun _ => true) = some true) : ∃ t, step s = .next t :=
  exists_next_of_onNext h

theorem decode_a1On : decode 0b00001#5 = some .a1On := by decide

/-- IDLE with one word pending. -/
theorem idleSt_inv (x y : Option CmdWord) : (idleSt [x, y]).Inv :=
  ⟨rfl, rfl, rfl, Nat.zero_le _, Nat.zero_le _, by show 0 < smallCfg.txBytes; decide, rfl, ⟨nofun, nofun⟩,
    rfl, rfl⟩

/-- SYNTH after four samples. -/
theorem synthSt_inv : (synthSt smallCfg 4).Inv :=
  ⟨rfl, by decide +kernel, by decide +kernel, by decide +kernel, by decide +kernel, by decide +kernel, rfl,
    ⟨nofun, nofun⟩,
    by decide +kernel, rfl, cmdA1On, rfl, by simp [synthSt, Memory.ofBytes, State.resetWith]⟩

/-- DRAIN anywhere in the transmission and at any sink levels. -/
theorem drainSt_inv {rd : Nat} (h : rd < 1456) (ready fail : Bool) : (drainSt rd ready fail).Inv := by
  have hlen : (drainSt rd ready fail).buf.length = 1456 := by
    rw [show (drainSt rd ready fail).buf = Memory.ofBytes (tx minCfg cmdA1On) from rfl, Memory.length_ofBytes]
    decide +kernel
  have hcap : (drainSt rd ready fail).cfg.txBytes = 1456 := by show minCfg.txBytes = 1456; decide +kernel
  have hsamples : (drainSt rd ready fail).cfg.txSamples = 728 := by show minCfg.txSamples = 728; decide +kernel
  exact ⟨rfl, Memory.wf_ofBytes _, by rw [hlen], by rw [hlen, hcap], by rw [hsamples]; exact Nat.le_refl 728,
    by rw [hcap]; exact h, rfl, ⟨nofun, nofun⟩, hsamples.symm, cmdA1On, State.command_of_decode (i := .a1On) decode_a1On,
    Memory.bytes_cellsFrom 0 _⟩

theorem haltSt_inv : haltSt.Inv :=
  ⟨rfl, rfl, rfl, Nat.zero_le _, Nat.zero_le _, by show 0 < smallCfg.txBytes; decide, rfl,
    ⟨fun _ => rfl, fun _ => rfl⟩, trivial⟩

theorem drainSt_sinkShape (rd : Nat) (ready fail : Bool) : (drainSt rd ready fail).SinkShape :=
  ⟨[], cmdA1On, State.command_of_decode (i := .a1On) decode_a1On, rfl⟩

theorem drainSt_length (rd : Nat) (ready fail : Bool) :
    (drainSt rd ready fail).buf.length = (drainSt rd ready fail).cfg.txBytes := by
  rw [show (drainSt rd ready fail).buf = Memory.ofBytes (tx minCfg cmdA1On) from rfl, Memory.length_ofBytes]
  show _ = minCfg.txBytes
  decide +kernel

theorem step_idle_next : ∃ t, step (idleSt [some 0b00001#5, none]) = .next t := exists_next_step (by decide)

theorem step_synth_next : ∃ t, step (synthSt smallCfg 4) = .next t := exists_next_step (by decide +kernel)

theorem step_drain_next : ∃ t, step (drainSt 2 true false) = .next t := exists_next_step (by decide +kernel)

theorem step_fault_next : ∃ t, step (drainSt 2 true true) = .next t := exists_next_step (by decide +kernel)

theorem step_halt_next : ∃ t, step haltSt = .next t := exists_next_step (by decide)

/-! ### Witnesses: for each statement with hypotheses, what meets them all together -/

theorem witness_DecodingIsTheThreeSlices :
    decode 0b11101#5 = some .d3On ∧ (0b11110#5 : CmdWord).extractLsb' 1 2 = 3#2 := by decide

theorem witness_RejectedIdentifierChangesNothing :
    ofIdentifier ['A', '4', '-'] = none ∧ ['A', '3', '-'] = Instr.identifier .a3Off := by decide

theorem witness_BitStringHasOneMarkPerField : decode 0b00110#5 = none ∧ decode 0b11111#5 = none := by decide

theorem witness_GroupCommandsAsListed :
    (idleSt [none, some 0b00001#5]).phase = .idle ∧ 1 < (idleSt [none, some 0b00001#5]).cfg.nPorts ∧
      (idleSt [none, some 0b00001#5]).reqAt 1 = some 0b00001#5 := by decide

theorem witness_PulseAndPauseFillTheSlot : minCfg.wf = true := rfl

theorem witness_BitSamplesMatchBitSample : 0 < minCfg.symLen ∧ 3 < minCfg.symLen ∧ minCfg.symLen = 4 := by decide

theorem witness_BodyClosedForm :
    minCfg.wf = true ∧ (bitString cmdA1On).length = 24 ∧ 95 < minCfg.bodyLen ∧ minCfg.bodyLen = 96 := by decide

theorem witness_BodyAlternatesPulsesAndPauses : minCfg.wf = true ∧ (bitString cmdA1On).length = 24 := by decide

theorem witness_SampleIsTransmissionElement : minCfg.wf = true ∧ 727 < minCfg.txSamples ∧ minCfg.txSamples = 728 := by
  decide

theorem witness_SegmentMap : 5 < nTx ∧ (bitString cmdA1On)[23]? = some true ∧ 4 < repeats := by decide

theorem witness_TransmissionRunStructure : minCfg.wf = true := rfl

theorem witness_ByteLayout : minCfg.wf = true ∧ 727 < minCfg.txSamples := by decide

theorem witness_AcceptLatchesTheCommand :
    (idleSt [none, some 0b11101#5]).phase = .idle ∧ 1 < (idleSt [none, some 0b11101#5]).cfg.nPorts ∧
      (idleSt [none, some 0b11101#5]).reqAt 1 = some (encode .d3On) := by decide

/-- The first sample, and the last one. -/
theorem witness_SynthesizeAppendsOneSample :
    ((synthSt minCfg 0).phase = .synth ∧ (synthSt minCfg 0).cmd = encode .a1On ∧
      (synthSt minCfg 0).buf.length = 2 * (synthSt minCfg 0).sidx ∧
      (synthSt minCfg 0).sidx < (synthSt minCfg 0).cfg.txSamples) ∧
    (synthSt minCfg 727).phase = .synth ∧ (synthSt minCfg 727).cmd = encode .a1On ∧
      (synthSt minCfg 727).buf.length = 2 * (synthSt minCfg 727).sidx ∧
      (synthSt minCfg 727).sidx < (synthSt minCfg 727).cfg.txSamples := by decide +kernel

/-- The byte before the last. -/
theorem witness_DrainDeliversOneByte :
    (drainSt 1454 true false).phase = .drain ∧ (drainSt 1454 true false).outReady = true ∧
      (drainSt 1454 true false).sinkFail = false ∧
      (drainSt 1454 true false).buf.length = (drainSt 1454 true false).cfg.txBytes ∧
      (drainSt 1454 true false).buf.read (drainSt 1454 true false).rd = some 127#8 ∧
      (drainSt 1454 true false).rd + 1 < (drainSt 1454 true false).cfg.txBytes :=
  ⟨rfl, rfl, rfl, drainSt_length _ _ _, by decide +kernel, by decide +kernel⟩

theorem witness_LastByteEndsTheDrain :
    (drainSt 1455 true false).phase = .drain ∧ (drainSt 1455 true false).outReady = true ∧
      (drainSt 1455 true false).sinkFail = false ∧
      (drainSt 1455 true false).buf.length = (drainSt 1455 true false).cfg.txBytes ∧
      (drainSt 1455 true false).buf.read (drainSt 1455 true false).rd = some 127#8 ∧
      (drainSt 1455 true false).rd + 1 = (drainSt 1455 true false).cfg.txBytes :=
  ⟨rfl, rfl, rfl, drainSt_length _ _ _, by decide +kernel, by decide +kernel⟩

theorem witness_DrainByteIsTransmissionByte :
    (drainSt 1455 true false).Inv ∧ (drainSt 1455 true false).phase = .drain :=
  ⟨drainSt_inv (by decide) _ _, rfl⟩

theorem witness_SlowSinkChangesNothing :
    (drainSt 2 false false).phase = .drain ∧ (drainSt 2 false false).outReady = false ∧
      (drainSt 2 false false).sinkFail = false := ⟨rfl, rfl, rfl⟩

/-- With the sink ready as well. -/
theorem witness_SinkFaultEntry :
    (drainSt 0 true true).phase = .drain ∧ (drainSt 0 true true).sinkFail = true := ⟨rfl, rfl⟩

theorem witness_PresentedCommandIgnoredOutsideIdle : (synthSt smallCfg 4).phase ≠ .idle := nofun

/-- One state for each clause: accepting, idle without the word, SYNTH, DRAIN in the middle and at the last byte, HALT. -/
theorem witness_CommandFrame :
    (∃ t, exec .a1On (idleSt [some 0b00001#5, none]) = .next t) ∧
      (∃ t, exec .a1Off (idleSt [some 0b00001#5, none]) = .next t) ∧
      (idleSt [some 0b00001#5, none]).portOf (encode .a1On) = some 0 ∧
      (idleSt [some 0b00001#5, none]).portOf (encode .a1Off) = none ∧
      (∃ t, exec .a1On (synthSt smallCfg 4) = .next t) ∧ (∃ t, exec .a1On (drainSt 2 true false) = .next t) ∧
      (∃ t, exec .a1On (drainSt 1455 true false) = .next t) ∧ ∃ t, exec .a1On haltSt = .next t :=
  ⟨exists_next_of_onNext (by decide), exists_next_of_onNext (by decide), by decide, by decide,
    exists_next_of_onNext (by decide +kernel), exists_next_of_onNext (by decide +kernel),
    exists_next_of_onNext (by decide +kernel), exists_next_of_onNext (by decide)⟩

theorem witness_StepRunsDecodedInstruction :
    smallCfg.wf = true ∧ (idleSt [none, some 0b11101#5]).rst = false ∧
      (idleSt [none, some 0b11101#5]).fetch = some 0b11101#5 ∧ decode 0b11101#5 = some .d3On ∧
      ∃ t, exec .d3On (idleSt [none, some 0b11101#5]) = .next t :=
  ⟨rfl, rfl, by decide, by decide, exists_next_of_onNext (by decide)⟩

theorem witness_FetchByPhase :
    (idleSt [none, some 0b11101#5]).phase = .idle ∧ (idleSt [none, some 0b11101#5]).granted = some 1 ∧
      (synthSt smallCfg 4).phase = .synth ∧ (drainSt 2 true false).phase = .drain ∧ haltSt.phase = .halt :=
  ⟨rfl, by decide, rfl, rfl, rfl⟩

/-- In the state after reset, and in HALT. -/
theorem witness_PlacedWordRunsNext :
    State.reset.cfg.wf = true ∧ haltSt.cfg.wf = true ∧ decodeTableWord 8 0x1D = some .d3On := by decide

/-- A schedule whose move raises a submission on the last port. -/
theorem witness_EnvironmentMoveTouchesOnlyInputs :
    let s : State := { idleSt [some 0b00001#5, none] with env := [⟨false, true, false, 1, [(1, 0b00011#5)]⟩, quiet] }
    s.reqAt 0 = some 0b00001#5 ∧ s.reqAt 1 = none ∧ s.advance.reqAt 1 = some 0b00011#5 ∧
      s.env = [⟨false, true, false, 1, [(1, 0b00011#5)]⟩, quiet] ∧ 1 < s.cfg.nPorts ∧ s.req.length = s.cfg.nPorts := by
  decide

/-- One state for each way to wait. -/
theorem witness_WaitingStepMovesOnlyEnvironment :
    ((idleSt [none, none]).Inv ∧ (idleSt [none, none]).rst = false ∧ (idleSt [none, none]).Waiting) ∧
      ((drainSt 2 false false).Inv ∧ (drainSt 2 false false).rst = false ∧ (drainSt 2 false false).Waiting) ∧
      haltSt.Inv ∧ haltSt.rst = false ∧ haltSt.Waiting :=
  ⟨⟨idleSt_inv _ _, rfl, Or.inl ⟨rfl, by decide⟩⟩,
    ⟨drainSt_inv (by decide) _ _, rfl, Or.inr (Or.inl ⟨rfl, rfl, rfl⟩)⟩, haltSt_inv, rfl, Or.inr (Or.inr rfl)⟩

/-- With a failing sink in DRAIN. -/
theorem witness_ResetStepWinsOverEverything :
    let s : State := { drainSt 2 true true with rst := true, req := [none, some 0b00000#5] }
    s.cfg.wf = true ∧ s.rst = true ∧ s.reqAt 1 = some 0b00000#5 := ⟨rfl, rfl, rfl⟩

/-- With and without reset. -/
theorem witness_OnlyResetLeavesHalt :
    haltSt.cfg.wf = true ∧ haltSt.phase = .halt ∧ haltSt.rst = false ∧ haltSt.reqAt 0 = some 0b00000#5 ∧
      ({ haltSt with rst := true } : State).phase = .halt ∧ ({ haltSt with rst := true } : State).rst = true :=
  ⟨rfl, rfl, rfl, rfl, rfl, rfl⟩

theorem witness_OnlyReservedPendingIsRefused :
    let s := idleSt [none, some 0b00110#5]
    s.cfg.wf = true ∧ s.rst = false ∧ s.phase = .idle ∧ 1 < s.cfg.nPorts ∧ s.reqAt 1 = some 0b00110#5 ∧
      ∀ q v, q < s.cfg.nPorts → s.reqAt q = some v → decode v = none := by
  refine ⟨rfl, rfl, rfl, by decide, rfl, ?_⟩
  intro q v hq hv
  rcases q with _ | _ | q
  · cases hv
  · cases hv; decide
  · exact absurd hq (by show ¬ q + 2 < 2; omega)

/-- Each of the four disjuncts, at the value next to a legal one. -/
theorem witness_IllegalConfigurationRefused :
    (Config.bitRate ⟨4, 0, 1, 1⟩ = 0) ∧ Config.sampleRate ⟨3, 1, 1, 1⟩ < 4 * Config.bitRate ⟨3, 1, 1, 1⟩ ∧
      Config.flushLen ⟨4, 1, 0, 1⟩ = 0 ∧ Config.nPorts ⟨4, 1, 1, 0⟩ = 0 := by decide

theorem witness_EveryPendingPortCanBeGranted :
    let s := idleSt [some 0x0A#5, some 0x1D#5]
    s.cfg.wf = true ∧ s.rst = false ∧ s.phase = .idle ∧ 1 < s.cfg.nPorts ∧ s.reqAt 1 = some 0x1D#5 ∧
      decode 0x1D#5 = some .d3On := by decide

/-- With a reserved word beside the legal one. -/
theorem witness_GrantTakesExactlyOnePort :
    let s := idleSt [some 0b00110#5, some 0x1D#5]
    s.cfg.wf = true ∧ s.rst = false ∧ s.phase = .idle ∧ s.granted = some 1 := by decide

theorem witness_ConfigurationNeverChanges : ∃ t, step (idleSt [some 0b00001#5, none]) = .next t := step_idle_next

/-- One step of each kind: accept, synthesize, the byte before the end, the last byte, fault. -/
theorem witness_ElementsWrittenOnlyAsListed :
    ((idleSt [some 0b00001#5, none]).rst = false ∧ ∃ t, step (idleSt [some 0b00001#5, none]) = .next t) ∧
      ((synthSt smallCfg 4).rst = false ∧ ∃ t, step (synthSt smallCfg 4) = .next t) ∧
      ((drainSt 2 true false).rst = false ∧ ∃ t, step (drainSt 2 true false) = .next t) ∧
      ((drainSt 1455 true false).rst = false ∧ ∃ t, step (drainSt 1455 true false) = .next t) ∧
      (drainSt 2 true true).rst = false ∧ ∃ t, step (drainSt 2 true true) = .next t :=
  ⟨⟨rfl, step_idle_next⟩, ⟨rfl, step_synth_next⟩, ⟨rfl, step_drain_next⟩,
    ⟨rfl, exists_next_step (by decide +kernel)⟩, ⟨rfl, step_fault_next⟩⟩

/-- One step of each edge of the graph but those of a wait. -/
theorem witness_PhasesFollowTheGraph :
    onNext (step (idleSt [none, none])) State.phase = some .idle ∧
      onNext (step (idleSt [some 0b00001#5, none])) State.phase = some .synth ∧
      onNext (step (synthSt minCfg 726)) State.phase = some .synth ∧
      onNext (step (synthSt minCfg 727)) State.phase = some .drain ∧
      onNext (step (drainSt 1454 true false)) State.phase = some .drain ∧
      onNext (step (drainSt 1455 true false)) State.phase = some .idle ∧
      onNext (step (drainSt 0 false true)) State.phase = some .halt ∧
      onNext (step haltSt) State.phase = some .halt := by decide +kernel

/-- A step that delivers, and steps that do not. -/
theorem witness_SinkReceivesExactlyDrainedBytes :
    ((drainSt 2 true false).rst = false ∧ ∃ t, step (drainSt 2 true false) = .next t) ∧
      ((drainSt 2 true true).rst = false ∧ ∃ t, step (drainSt 2 true true) = .next t) ∧
      haltSt.rst = false ∧ ∃ t, step haltSt = .next t :=
  ⟨⟨rfl, step_drain_next⟩, ⟨rfl, step_fault_next⟩, rfl, step_halt_next⟩

/-- The port that is not granted. -/
theorem witness_PendingSubmissionWaitsForItsAccept :
    (∃ t, step (idleSt [some 0x0A#5, some 0x1D#5]) = .next t) ∧
      (idleSt [some 0x0A#5, some 0x1D#5]).reqAt 1 = some 0x1D#5 ∧
      (idleSt [some 0x0A#5, some 0x1D#5]).reqReady 1 = false :=
  ⟨exists_next_step (by decide), by decide, by decide⟩

theorem witness_SinkInputsIgnoredOutsideDrain :
    (idleSt [some 0b00001#5, none]).phase ≠ .drain ∧ (synthSt smallCfg 4).phase ≠ .drain ∧ haltSt.phase ≠ .drain :=
  ⟨nofun, nofun, nofun⟩

theorem witness_RequestsIgnoredDuringTransmission :
    (synthSt smallCfg 4).phase ≠ .idle ∧ (drainSt 2 true false).phase ≠ .idle := ⟨nofun, nofun⟩

/-- A byte on the output, a grant, and the ports that are not granted: another one, and any in DRAIN. -/
theorem witness_OutputPortsFollowState :
    (drainSt 2 true false).outValid = true ∧
      (drainSt 2 true false).buf.read (drainSt 2 true false).rd = some 255#8 ∧
      (idleSt [none, some 0b00001#5]).reqReady 1 = true ∧ (idleSt [none, some 0b00001#5]).reqReady 0 = false ∧
      ({ drainSt 2 true false with req := [some 0b00001#5, none] } : State).reqReady 0 = false := by decide +kernel

theorem witness_StalledByteIsHeld :
    (drainSt 2 false false).Inv ∧ (drainSt 2 false false).rst = false ∧ (drainSt 2 false false).phase = .drain ∧
      (drainSt 2 false false).outReady = false ∧ (drainSt 2 false false).sinkFail = false :=
  ⟨drainSt_inv (by decide) _ _, rfl, rfl, rfl, rfl⟩

theorem witness_InvariantHoldsAtReset : minCfg.wf = true := rfl

/-- In every phase, with the step that goes on. -/
theorem witness_EveryStepKeepsInvariant :
    ((idleSt [some 0b00001#5, none]).Inv ∧ ∃ t, step (idleSt [some 0b00001#5, none]) = .next t) ∧
      ((synthSt smallCfg 4).Inv ∧ ∃ t, step (synthSt smallCfg 4) = .next t) ∧
      ((drainSt 2 true false).Inv ∧ ∃ t, step (drainSt 2 true false) = .next t) ∧
      haltSt.Inv ∧ ∃ t, step haltSt = .next t :=
  ⟨⟨idleSt_inv _ _, step_idle_next⟩, ⟨synthSt_inv, step_synth_next⟩, ⟨drainSt_inv (by decide) _ _, step_drain_next⟩,
    haltSt_inv, step_halt_next⟩

theorem witness_EveryStepKeepsSinkShape :
    (drainSt 2 true false).Inv ∧ (drainSt 2 true false).SinkShape ∧ ∃ t, step (drainSt 2 true false) = .next t :=
  ⟨drainSt_inv (by decide) _ _, drainSt_sinkShape _ _ _, step_drain_next⟩

theorem witness_OnlyReservedWordsStopTheBlock :
    (synthSt smallCfg 4).Inv ∧ (idleSt [none, some 0b00110#5]).Inv := ⟨synthSt_inv, idleSt_inv _ _⟩

/-- With bytes in the sink, and in IDLE. -/
theorem witness_SinkStreamAlignment :
    (drainSt 3 true false).SinkShape ∧ (drainSt 3 true false).sink[2]? = some 255#8 ∧
      (idleSt [none, none]).SinkShape ∧ (idleSt [none, none]).phase = .idle :=
  ⟨drainSt_sinkShape _ _ _, by decide +kernel, ⟨[], rfl⟩, rfl⟩

/-- From the state with four samples synthesized and a schedule long enough. -/
theorem witness_SynthesisRunsToTheWholeTransmission :
    let s : State := { synthSt smallCfg 4 with env := List.replicate 1818 quiet }
    s.Inv ∧ s.phase = .synth ∧ s.command = some cmdA1On ∧ s.rst = false ∧
      s.cfg.txSamples ≤ s.sidx + 1 + s.env.length ∧ ∀ mv ∈ s.env.take (s.cfg.txSamples - s.sidx - 1), mv.rst = false := by
  have h := synthSt_inv
  refine ⟨⟨h.1, h.2, h.3, h.4, h.5, h.6, h.7, h.8, h.9⟩, rfl, rfl, rfl, ?_, ?_⟩
  · rw [List.length_replicate]; decide +kernel
  · intro mv hm
    rw [List.eq_of_mem_replicate (List.mem_of_mem_take hm)]; rfl

/-- `A1+` granted, and a schedule in which the sink is always ready. -/
theorem witness_CommandIsTransmittedInFull :
    let s : State := { idleSt [some 0b00001#5, none] with env := List.replicate 5469 ready }
    s.Inv ∧ s.phase = .idle ∧ s.rst = false ∧ s.granted = some 0 ∧ s.reqAt 0 = some (encode .a1On) ∧
      s.cfg.txSamples + s.cfg.txBytes ≤ s.env.length ∧
      (∀ mv ∈ s.env.take (s.cfg.txSamples + s.cfg.txBytes), mv.rst = false) ∧
      ∀ mv ∈ (s.env.drop s.cfg.txSamples).take s.cfg.txBytes, ReadyMove mv := by
  have h := idleSt_inv (some 0b00001#5) none
  refine ⟨⟨h.1, h.2, h.3, h.4, h.5, h.6, h.7, h.8, h.9⟩, rfl, rfl, by decide +kernel, rfl, ?_, ?_, ?_⟩
  · rw [List.length_replicate]; decide +kernel
  · intro mv hm
    rw [List.eq_of_mem_replicate (List.mem_of_mem_take hm)]; rfl
  · intro mv hm
    rw [List.eq_of_mem_replicate (List.mem_of_mem_drop (List.mem_of_mem_take hm))]; exact ⟨rfl, rfl, rfl⟩

/-- One step that accepts. -/
theorem witness_TransmissionsReachTheSinkInAcceptanceOrder :
    let s := idleSt [some 0b00001#5, none]
    s.Inv ∧ noResetIn 1 s ∧ acceptedIn 1 s = [cmdA1On] ∧ ∃ t, run 1 s = .next t ∧ t.phase ≠ .halt := by
  have h : step (idleSt [some 0b00001#5, none])
      = .next ((idleSt [some 0b00001#5, none]).accept 0 0b00001#5).advance := by
    rw [step_of_decode_some (i := .a1On) (w := 0b00001#5) rfl rfl (by decide) (by decide), exec_eq_runCommand,
      State.runCommand_idle_some rfl (p := 0) (by decide)]
    rfl
  refine ⟨idleSt_inv _ _, ⟨rfl, ?_⟩, ?_, ((idleSt [some 0b00001#5, none]).accept 0 0b00001#5).advance, ?_, ?_⟩
  · rw [h]; trivial
  · simp only [acceptedIn, h]; decide
  · unfold run; rw [h]; rfl
  · rw [State.advance_phase]; nofun

end Sys2Proof.Tests
end

/-! ## Scope (00_scope.md): the derived constants, the refused configuration, one Command's whole transmission -/

namespace Sys2Proof

/-- The word of an instruction decodes to it (R75). -/
@[simp] theorem decode_encode (i : Instr) : decode (encode i) = some i := by
  rw [decode_eq_map, decodeCommand_encode, Option.map_some, Instr.command_instr]

/-! ### The length and the elements of a transmission (R145, R148, R165, R167) -/

theorem length_body_append_separator (c : Config) (cmd : Command) :
    (body c (bitString cmd) ++ separator c).length = c.repStride := by
  rw [List.length_append, length_body_bitString, length_separator, Config.repStride, Nat.add_assoc]

@[simp] theorem length_txs (c : Config) (cmd : Command) : (txs c cmd).length = c.txSamples := by
  rw [txs_eq]
  simp only [List.length_append, List.length_flatten, List.map_replicate, List.sum_replicate, smul_eq_mul,
    length_zeroRun, length_body_bitString, length_separator, Config.txSamples, nTx, repeats]
  omega

@[simp] theorem length_tx (c : Config) (cmd : Command) : (tx c cmd).length = c.txBytes := by
  rw [tx, length_bytesOf, length_txs, Config.txBytes]

/-- The flush runs alone make a transmission of a legal configuration non-empty (R12). -/
theorem Config.txSamples_pos {c : Config} (h : c.wf = true) : 0 < c.txSamples := by
  obtain ⟨-, -, hflush, -⟩ := c.wf_iff.mp h
  unfold Config.txSamples; omega

theorem getElem?_zeroRun {n t : Nat} (h : t < n) : (zeroRun n)[t]? = some .zero :=
  List.getElem?_replicate_of_lt h

/-- `bitsample` is the sample-indexed form of `bit` (R145). -/
theorem getElem?_bitSamples {c : Config} (v : Bool) {t : Nat} (h : t < c.symLen) :
    (bitSamples c v)[t]? = some (bitSampleAt c v t) := by
  have hslot := c.pulse_add_pause v
  unfold bitSamples bitSampleAt
  by_cases ht : t < c.pulseLength v
  · rw [List.getElem?_append_left (by simpa using ht), if_pos ht, fullRun, List.getElem?_replicate_of_lt ht]
  · rw [List.getElem?_append_right (by simpa using ht), if_neg ht, length_fullRun, getElem?_zeroRun (by omega)]

/-- The closed form of a body (R148). -/
theorem getElem?_body {c : Config} (hpos : 0 < c.symLen) (bs : List Bool) {t : Nat} (h : t < bs.length * c.symLen) :
    (body c bs)[t]? = some (bitSampleAt c (bs.getD (t / c.symLen) false) (t % c.symLen)) := by
  induction bs generalizing t with
  | nil => simp at h
  | cons v bs ih =>
    rw [body_cons]
    by_cases ht : t < c.symLen
    · rw [List.getElem?_append_left (by simpa using ht), getElem?_bitSamples v ht, Nat.div_eq_of_lt ht,
        Nat.mod_eq_of_lt ht, List.getD_cons_zero]
    · have hle : c.symLen ≤ t := by omega
      rw [List.length_cons, Nat.succ_mul] at h
      rw [List.getElem?_append_right (by simpa using hle), length_bitSamples, ih (by omega),
        Nat.div_eq_sub_div hpos hle, Nat.mod_eq_sub_mod hle, List.getD_cons_succ]

/-- The sample at index `u` of one stride, a body with its separator: the inner cases of R167. -/
def strideSampleAt (c : Config) (cmd : Command) (u : Nat) : Sample :=
  if u < c.bodyLen then bitSampleAt c ((bitString cmd).getD (u / c.symLen) false) (u % c.symLen)
  else if u < c.bodyLen + c.symLen then bitSampleAt c false (u - c.bodyLen)
  else .zero

/-- `sample` in the leading flush run. -/
theorem sampleAt_leading {c : Config} (cmd : Command) {n : Nat} (h : n < c.flushLen) : sampleAt c cmd n = .zero :=
  if_pos h

/-- `sample` after the final body. -/
theorem sampleAt_trailing {c : Config} (cmd : Command) {n : Nat} (h : c.flushLen ≤ n)
    (hm : 5 * c.repStride + c.bodyLen ≤ n - c.flushLen) : sampleAt c cmd n = .zero :=
  (if_neg h.not_gt).trans (if_pos hm)

/-- `sample` between the flush runs. -/
theorem sampleAt_stride {c : Config} (cmd : Command) {n : Nat} (h : c.flushLen ≤ n)
    (hm : n - c.flushLen < 5 * c.repStride + c.bodyLen) :
    sampleAt c cmd n = strideSampleAt c cmd ((n - c.flushLen) % c.repStride) :=
  (if_neg h.not_gt).trans (if_neg hm.not_ge)

/-- One repetition with its separator: the body, the continuation bit, the blank gap (R163, R164). -/
theorem getElem?_body_append_separator {c : Config} (hpos : 0 < c.symLen) (cmd : Command) {u : Nat}
    (h : u < c.repStride) :
    (body c (bitString cmd) ++ separator c)[u]? = some (strideSampleAt c cmd u) := by
  have hbody := length_body_bitString c cmd
  unfold strideSampleAt
  by_cases hu : u < c.bodyLen
  · rw [List.getElem?_append_left (by omega), if_pos hu, getElem?_body hpos _ (by rw [length_bitString]; exact hu)]
  · rw [List.getElem?_append_right (by omega), if_neg hu, hbody, separator]
    by_cases hcont : u < c.bodyLen + c.symLen
    · rw [if_pos hcont, List.getElem?_append_left (by rw [length_bitSamples]; omega), getElem?_bitSamples _ (by omega)]
    · rw [if_neg hcont, List.getElem?_append_right (by rw [length_bitSamples]; omega), length_bitSamples,
        getElem?_zeroRun (by unfold Config.repStride at h; omega)]

/-- The six bodies with the five separators between them are the beginning of six whole strides, so every index below
their end is an index within one stride. -/
theorem getElem?_bodies {c : Config} (cmd : Command) {m : Nat} (h : m < 5 * c.repStride + c.bodyLen) :
    ((List.replicate 5 (body c (bitString cmd) ++ separator c)).flatten ++ body c (bitString cmd))[m]?
      = (body c (bitString cmd) ++ separator c)[m % c.repStride]? := by
  have hstride := length_body_append_separator c cmd
  have hsix : (List.replicate 6 (body c (bitString cmd) ++ separator c)).flatten
      = ((List.replicate 5 (body c (bitString cmd) ++ separator c)).flatten ++ body c (bitString cmd))
        ++ separator c := by
    rw [List.replicate_succ', List.flatten_append, List.flatten_singleton, List.append_assoc]
  have hlen : ((List.replicate 5 (body c (bitString cmd) ++ separator c)).flatten ++ body c (bitString cmd)).length
      = 5 * c.repStride + c.bodyLen := by
    rw [List.length_append, List.length_flatten, List.map_replicate, List.sum_replicate, smul_eq_mul, hstride,
      length_body_bitString]
  have hle : c.bodyLen ≤ c.repStride := by unfold Config.repStride; omega
  rw [← List.getElem?_append_left (l₂ := separator c) (by omega), ← hsix,
    getElem?_flatten_replicate _ _ _ (by omega), hstride]

/-- The closed form the synthesize step evaluates is the element of the sequence the framing algorithm builds (R167). -/
theorem getElem?_txs {c : Config} (hwf : c.wf = true) (cmd : Command) {n : Nat} (h : n < c.txSamples) :
    (txs c cmd)[n]? = some (sampleAt c cmd n) := by
  have hpos : 0 < c.symLen := by have := Config.four_le_symLen hwf; omega
  have hbodies : c.txSamples = c.flushLen + (5 * c.repStride + c.bodyLen) + c.flushLen := by
    simp only [Config.txSamples, Config.repStride, nTx, repeats]; omega
  have hlen : (zeroRun c.flushLen ++ ((List.replicate 5 (body c (bitString cmd) ++ separator c)).flatten
      ++ body c (bitString cmd))).length = c.flushLen + (5 * c.repStride + c.bodyLen) := by
    have := length_txs c cmd
    rw [txs_eq, List.length_append, length_zeroRun] at this
    omega
  rw [txs_eq]
  by_cases hlead : n < c.flushLen
  · rw [List.getElem?_append_left (by omega), List.getElem?_append_left (by simpa using hlead),
      getElem?_zeroRun hlead, sampleAt_leading cmd hlead]
  · have hle : c.flushLen ≤ n := by omega
    by_cases hm : n - c.flushLen < 5 * c.repStride + c.bodyLen
    · rw [List.getElem?_append_left (by omega), List.getElem?_append_right (by simpa using hle), length_zeroRun,
        getElem?_bodies cmd hm, getElem?_body_append_separator hpos cmd
          (Nat.mod_lt _ (by unfold Config.repStride; omega)), sampleAt_stride cmd hle hm]
    · rw [List.getElem?_append_right (by omega), hlen, getElem?_zeroRun (by omega),
        sampleAt_trailing cmd hle (by omega)]

end Sys2Proof

/-! ### Steps and runs of one transmission (R183 to R187) -/

namespace Sys2Proof.Machine

@[simp] theorem State.advance_rst (s : State) : s.advance.rst = s.nextMove.rst := rfl
@[simp] theorem State.advance_outReady (s : State) : s.advance.outReady = s.nextMove.outReady := rfl
@[simp] theorem State.advance_sinkFail (s : State) : s.advance.sinkFail = s.nextMove.sinkFail := rfl
@[simp] theorem State.advance_env (s : State) : s.advance.env = s.env.tail := rfl

/-- After `n` moves of a schedule the next one is still among its first `k`. -/
theorem State.nextMove_mem_take {s : State} {moves : List EnvMove} {n k : Nat} (henv : s.env = moves.drop n)
    (hn : n < k) (hk : k ≤ moves.length) : s.nextMove ∈ moves.take k := by
  have hlt : n < moves.length := by omega
  have hmove : s.nextMove = moves[n] := by
    rw [State.nextMove, henv, List.drop_eq_getElem_cons hlt]
  rw [hmove]
  exact List.mem_take_iff_getElem.mpr ⟨n, by omega, rfl⟩

theorem State.SameBlock.refl (s : State) : s.SameBlock s := ⟨rfl, rfl, rfl, rfl, rfl, rfl, rfl, rfl⟩

theorem State.SameBlock.command {s t : State} (h : s.SameBlock t) : t.command = s.command := by
  rw [State.command, State.command, h.cmd]

theorem run_succ_of_run_of_step {k : Nat} {s t u : State} (hrun : run k s = .next t) (hstep : step t = .next u) :
    run (k + 1) s = .next u := by
  rw [run_add hrun, run_succ_of_next hstep, run_zero]

/-- With a Command granted in IDLE the step accepts it (R183). -/
theorem step_accept {s : State} {i : Instr} {p : Nat} (hwf : s.cfg.wf = true) (hrst : s.rst = false)
    (hphase : s.phase = .idle) (hgrant : s.granted = some p) (hword : s.reqAt p = some (encode i))
    (hdecode : decode (encode i) = some i) : step s = .next (s.accept p (encode i)).advance := by
  rw [step_of_decode_some hwf hrst ((State.fetch_idle_granted hphase hgrant).trans hword) hdecode,
    exec_eq_runCommand, State.runCommand_idle_some hphase (State.portOf_of_granted hgrant hword), thenAdvance]

/-- In SYNTH and DRAIN the step runs the word in CMD (R60). -/
theorem step_of_command {s : State} {c : Command} (hwf : s.cfg.wf = true) (hrst : s.rst = false)
    (hfetch : s.fetch = some s.cmd) (hc : s.command = some c) : step s = thenAdvance (s.runCommand s.cmd) := by
  cases hd : decode s.cmd with
  | none => simp [State.command, hd] at hc
  | some i => rw [step_of_decode_some hwf hrst hfetch hd, exec_eq_runCommand, encode_of_decode hd]

/-- In SYNTH the step appends one sample (R185). -/
theorem step_synthesize {s : State} {c : Command} (hwf : s.cfg.wf = true) (hrst : s.rst = false)
    (hphase : s.phase = .synth) (hc : s.command = some c) (hlen : s.buf.length = 2 * s.sidx)
    (hlt : s.sidx < s.cfg.txSamples) : step s = .next (s.afterSynth c).advance := by
  rw [step_of_command hwf hrst (State.fetch_synth hphase) hc, State.runCommand_synth hphase,
    State.synthesize_eq_next hc hlen hlt, thenAdvance]

/-- In DRAIN with a ready sink the step delivers one byte (R186, R187). -/
theorem step_drainByte {s : State} {c : Command} (hwf : s.cfg.wf = true) (hrst : s.rst = false)
    (hphase : s.phase = .drain) (hc : s.command = some c) (hready : s.outReady = true) (hfail : s.sinkFail = false) :
    step s = thenAdvance s.drainByte := by
  rw [step_of_command hwf hrst (State.fetch_drain hphase) hc, State.runCommand_drain hphase,
    State.drain_of_ready hready hfail]

/-! #### Synthesis -/

/-- The block of `s` with the first `n` samples of the Command `c` in its buffer (R36's rows of SYNTH and DRAIN). -/
def State.synthesized (s : State) (c : Command) (n : Nat) : State :=
  { s with
    buf := Memory.ofBytes (bytesOf ((txs s.cfg c).take n))
    sidx := n
    phase := if n = s.cfg.txSamples then .drain else .synth }

/-- The next sample's bytes at the append address make the buffer one sample longer. -/
theorem ofBytes_take_append_sample {cfg : Config} (hwf : cfg.wf = true) (c : Command) {n : Nat}
    (hn : n < cfg.txSamples) :
    Memory.ofBytes (bytesOf ((txs cfg c).take n)) ++ Memory.cellsFrom (2 * n) (sampleAt cfg c n).bytes
      = Memory.ofBytes (bytesOf ((txs cfg c).take (n + 1))) := by
  have hlen : (bytesOf ((txs cfg c).take n)).length = 2 * n := by
    rw [length_bytesOf, List.length_take_of_le (by rw [length_txs]; omega)]
  rw [List.take_add_one, getElem?_txs hwf c hn, bytesOf_append]
  simp [Memory.ofBytes, Memory.cellsFrom_append, hlen]

/-- One synthesize step, whatever the environment does after it. -/
theorem State.SameBlock.step_synthesized {b t : State} {c : Command} {n : Nat} (h : (b.synthesized c n).SameBlock t)
    (hwf : b.cfg.wf = true) (hc : b.command = some c) (hn : n < b.cfg.txSamples) (hrst : t.rst = false) :
    step t = .next (t.afterSynth c).advance ∧ (b.synthesized c (n + 1)).SameBlock (t.afterSynth c) := by
  have hcfg : t.cfg = b.cfg := h.cfg
  have hbuf : t.buf = Memory.ofBytes (bytesOf ((txs b.cfg c).take n)) := h.buf
  have hsidx : t.sidx = n := h.sidx
  constructor
  · refine step_synthesize (hcfg ▸ hwf) hrst (h.phase.trans (if_neg hn.ne)) (h.command.trans hc) ?_
      (by rw [hsidx, hcfg]; exact hn)
    rw [hbuf, hsidx, Memory.length_ofBytes, length_bytesOf, List.length_take_of_le (by rw [length_txs]; omega)]
  · refine ⟨h.cfg, ?_, h.cmd, ?_, ?_, h.rd, h.fault, h.sink⟩
    · simp [State.afterSynth, State.synthesized, hsidx, hcfg]
    · simp [State.afterSynth, State.synthesized, hsidx]
    · simpa [State.afterSynth, State.synthesized, hsidx, hcfg, hbuf] using ofBytes_take_append_sample hwf c hn

/-- Synthesis needs nothing but steps without reset: from `m` samples, `n` more steps give `m + n`. -/
theorem run_synthesized {b t : State} {c : Command} {m k : Nat} (ht : (b.synthesized c m).SameBlock t)
    (hwf : b.cfg.wf = true) (hc : b.command = some c) (hm : m + k ≤ b.cfg.txSamples) (hk : k ≤ t.env.length)
    (hrst : ∀ mv ∈ t.env.take k, mv.rst = false) :
    ∀ n, n ≤ k → ∃ u, run n t.advance = .next u.advance ∧ (b.synthesized c (m + n)).SameBlock u ∧
      u.env = t.env.drop n := by
  intro n
  induction n with
  | zero => exact fun _ => ⟨t, rfl, ht, rfl⟩
  | succ n ih =>
    intro hn
    obtain ⟨u, hrun, hu, henv⟩ := ih (by omega)
    obtain ⟨hstep, hblock⟩ := (hu.trans u.advance_sameBlock).step_synthesized hwf hc (by omega)
      (hrst _ (State.nextMove_mem_take henv hn hk))
    exact ⟨_, run_succ_of_run_of_step hrun hstep, hblock, (congrArg List.tail henv).trans List.tail_drop⟩

/-! #### Drain -/

/-- The block of `s`, a state with the whole transmission of `c` in its buffer, after `n` of its bytes have gone to the
sink (R57, R186). -/
def State.delivered (s : State) (c : Command) (n : Nat) : State :=
  { s with rd := n, sink := s.sink ++ (tx s.cfg c).take n }

theorem State.delivered_zero {s : State} (c : Command) (hrd : s.rd = 0) : s.delivered c 0 = s := by
  rw [State.delivered, List.take_zero, List.append_nil, ← hrd]

/-- What holds of a block whose drain begins: a legal configuration, and the whole transmission of `c` in the buffer
(R36's row of DRAIN). -/
structure State.HoldsTransmission (s : State) (c : Command) : Prop where
  config  : s.cfg.wf = true
  phase   : s.phase = .drain
  command : s.command = some c
  buf     : s.buf = Memory.ofBytes (tx s.cfg c)

/-- The last sample leaves the whole transmission in the buffer (R185). -/
theorem State.holdsTransmission_synthesized {s : State} {c : Command} (hwf : s.cfg.wf = true)
    (hc : s.command = some c) : (s.synthesized c s.cfg.txSamples).HoldsTransmission c := by
  refine ⟨hwf, if_pos rfl, hc, ?_⟩
  simp [State.synthesized, tx, List.take_of_length_le]

/-- During the drain the buffer is full and the byte at RD is the transmission's next one, the last one included. -/
theorem State.SameBlock.read_delivered {b t : State} {c : Command} {n : Nat} (h : (b.delivered c n).SameBlock t)
    (hb : b.HoldsTransmission c) (hn : n < b.cfg.txBytes) :
    t.buf.length = t.cfg.txBytes ∧
      ∃ v, t.buf.read t.rd = some v ∧ t.sink ++ [v] = b.sink ++ (tx b.cfg c).take (n + 1) := by
  have hbuf : t.buf = Memory.ofBytes (tx b.cfg c) := h.buf.trans hb.buf
  have hcfg : t.cfg = b.cfg := h.cfg
  have hrd : t.rd = n := h.rd
  have hsink : t.sink = b.sink ++ (tx b.cfg c).take n := h.sink
  have hlt : n < (tx b.cfg c).length := by rw [length_tx]; exact hn
  refine ⟨by rw [hbuf, Memory.length_ofBytes, length_tx, hcfg], (tx b.cfg c)[n], ?_, ?_⟩
  · rw [hbuf, hrd, Memory.read_of_wf (Memory.wf_ofBytes _), Memory.ofBytes, Memory.bytes_cellsFrom,
      List.getElem?_eq_getElem hlt]
  · rw [hsink, List.take_add_one, List.getElem?_eq_getElem hlt, Option.toList_some, List.append_assoc]

/-- At any point of the drain, a step with a ready sink delivers the byte at RD. -/
theorem State.SameBlock.step_eq_drainByte {b t : State} {c : Command} {n : Nat} (h : (b.delivered c n).SameBlock t)
    (hb : b.HoldsTransmission c) (hrst : t.rst = false) (hready : t.outReady = true) (hfail : t.sinkFail = false) :
    step t = thenAdvance t.drainByte :=
  step_drainByte (by rw [h.cfg]; exact hb.config) hrst (h.phase.trans hb.phase) (h.command.trans hb.command) hready
    hfail

/-- One drain step that does not deliver the last byte. -/
theorem State.SameBlock.step_delivered {b t : State} {c : Command} {n : Nat} (h : (b.delivered c n).SameBlock t)
    (hb : b.HoldsTransmission c) (hn : n + 1 < b.cfg.txBytes) (hrst : t.rst = false) (hready : t.outReady = true)
    (hfail : t.sinkFail = false) :
    ∃ u, step t = .next u.advance ∧ (b.delivered c (n + 1)).SameBlock u ∧ u.env = t.env := by
  obtain ⟨hlen, v, hv, hsink⟩ := h.read_delivered hb (by omega)
  have hmore : t.rd + 1 < t.cfg.txBytes := by rw [h.rd, h.cfg]; exact hn
  refine ⟨{ t.sinkWrite v with rd := t.rd + 1 }, ?_, ?_, rfl⟩
  · rw [h.step_eq_drainByte hb hrst hready hfail, State.drainByte_of_more hlen hv hmore, thenAdvance]
  · exact ⟨h.cfg, h.phase, h.cmd, h.sidx, h.buf, congrArg (· + 1) h.rd, h.fault, hsink⟩

/-- The drain step that delivers the last byte. -/
theorem State.SameBlock.step_lastByte {b t : State} {c : Command} {n : Nat} (h : (b.delivered c n).SameBlock t)
    (hb : b.HoldsTransmission c) (hn : n + 1 = b.cfg.txBytes) (hrst : t.rst = false) (hready : t.outReady = true)
    (hfail : t.sinkFail = false) :
    ∃ u, step t = .next u.advance ∧ (b.delivered c (n + 1)).endDrain.SameBlock u := by
  obtain ⟨hlen, v, hv, hsink⟩ := h.read_delivered hb (by omega)
  have hlast : t.rd + 1 = t.cfg.txBytes := by rw [h.rd, h.cfg]; exact hn
  refine ⟨(t.sinkWrite v).endDrain, ?_, ?_⟩
  · rw [h.step_eq_drainByte hb hrst hready hfail, State.drainByte_of_last hlen hv hlast, thenAdvance]
  · exact ⟨h.cfg, rfl, h.cmd, h.sidx, rfl, rfl, h.fault, hsink⟩

/-- The drain up to its last byte: while the sink is ready each step delivers one byte. -/
theorem run_delivered {b t : State} {c : Command} {k : Nat} (ht : b.SameBlock t) (hb : b.HoldsTransmission c)
    (hrd : b.rd = 0) (hk : k ≤ t.env.length) (hready : ∀ mv ∈ t.env.take k, ReadyMove mv) :
    ∀ n, n ≤ k → n < b.cfg.txBytes →
      ∃ u, run n t.advance = .next u.advance ∧ (b.delivered c n).SameBlock u ∧ u.env = t.env.drop n := by
  intro n
  induction n with
  | zero => exact fun _ _ => ⟨t, rfl, (State.delivered_zero c hrd).symm ▸ ht, rfl⟩
  | succ n ih =>
    intro hn hlt
    obtain ⟨u, hrun, hu, henv⟩ := ih (by omega) (by omega)
    obtain ⟨hrst, hout, hfail⟩ := hready _ (State.nextMove_mem_take henv hn hk)
    obtain ⟨v, hstep, hv, hvenv⟩ := (hu.trans u.advance_sameBlock).step_delivered hb hlt hrst hout hfail
    exact ⟨v, run_succ_of_run_of_step hrun hstep, hv, by rw [hvenv, State.advance_env, henv, List.tail_drop]⟩

/-- With the sink ready throughout, `TX_BYTES` steps deliver the whole transmission and end the drain (R186, R187). -/
theorem run_drain {b t : State} {c : Command} (ht : b.SameBlock t) (hb : b.HoldsTransmission c) (hrd : b.rd = 0)
    (hlen : b.cfg.txBytes ≤ t.env.length) (hready : ∀ mv ∈ t.env.take b.cfg.txBytes, ReadyMove mv) :
    ∃ u, run b.cfg.txBytes t.advance = .next u.advance ∧ (b.delivered c b.cfg.txBytes).endDrain.SameBlock u := by
  obtain ⟨n, hn⟩ : ∃ n, n + 1 = b.cfg.txBytes :=
    ⟨b.cfg.txBytes - 1, by have := Config.txSamples_pos hb.config; unfold Config.txBytes; omega⟩
  obtain ⟨u, hrun, hu, henv⟩ := run_delivered ht hb hrd hlen hready n (by omega) (by omega)
  obtain ⟨hrst, hout, hfail⟩ := hready _ (State.nextMove_mem_take henv (by omega) hlen)
  obtain ⟨v, hstep, hv⟩ := (hu.trans u.advance_sameBlock).step_lastByte hb hn hrst hout hfail
  exact ⟨v, hn ▸ run_succ_of_run_of_step hrun hstep, hn ▸ hv⟩

/-- A block at the beginning of a synthesis: `TX_SAMPLES` steps without reset and `TX_BYTES` steps with the sink ready
deliver the whole transmission of `c` (R185 to R187). -/
theorem run_transmission {a : State} {c : Command} (ha : a.synthesized c 0 = a) (hwf : a.cfg.wf = true)
    (hc : a.command = some c) (hrd : a.rd = 0) (hlen : a.cfg.txSamples + a.cfg.txBytes ≤ a.env.length)
    (hrst : ∀ mv ∈ a.env.take a.cfg.txSamples, mv.rst = false)
    (hready : ∀ mv ∈ (a.env.drop a.cfg.txSamples).take a.cfg.txBytes, ReadyMove mv) :
    ∃ u, run (a.cfg.txSamples + a.cfg.txBytes) a.advance = .next u.advance ∧
      ((a.synthesized c a.cfg.txSamples).delivered c a.cfg.txBytes).endDrain.SameBlock u := by
  obtain ⟨t, hsynth, ht, htenv⟩ := run_synthesized (m := 0) (ha.symm ▸ State.SameBlock.refl a) hwf hc
    (Nat.zero_add _).le (Nat.le_of_add_right_le hlen) hrst _ le_rfl
  rw [Nat.zero_add] at ht
  obtain ⟨u, hdrain, hu⟩ := run_drain ht (State.holdsTransmission_synthesized hwf hc) hrd
    (by rw [htenv, List.length_drop]; exact Nat.le_sub_of_add_le' hlen) (by rw [htenv]; exact hready)
  exact ⟨u, (run_add hsynth).trans hdrain, hu⟩

/-- An accepted Command is at the beginning of its synthesis (R183). -/
theorem State.synthesized_zero_accept {s : State} (hwf : s.cfg.wf = true) (p : Nat) (w : CmdWord) (c : Command) :
    (s.accept p w).synthesized c 0 = s.accept p w := by
  have hpos : ¬ 0 = s.cfg.txSamples := (Config.txSamples_pos hwf).ne
  simp [State.accept, State.synthesized, Memory.ofBytes, hpos]

/-- Outside HALT the invariant leaves FAULT at 0 (R28). -/
theorem State.Inv.fault_eq_none {s : State} (h : s.Inv) (hphase : s.phase ≠ .halt) : s.fault = .none := by
  cases hf : s.fault with
  | none => rfl
  | sinkFault => exact absurd (h.faultHalt.mp hf) hphase

/-! ### The obligations -/

/-- Settles O59: accept, then synthesis of every sample, then the drain of every byte, each with its part of the
schedule. -/
theorem commandIsTransmittedInFull : Obligations.CommandIsTransmittedInFull := by
  unfold Obligations.CommandIsTransmittedInFull
  intro s i p hinv hphase hrst hgrant hword henvlen hquiet hready
  have haccept : run 1 s = .next (s.accept p (encode i)).advance :=
    run_succ_of_next (step_accept hinv.config hrst hphase hgrant hword (decode_encode i))
  obtain ⟨t, hrun, ht⟩ := run_transmission (State.synthesized_zero_accept hinv.config p (encode i) i.command)
    hinv.config (State.command_of_decode (decode_encode i)) rfl henvlen
    (fun mv hmv => hquiet mv (List.take_subset_take_left _ (Nat.le_add_right _ _) hmv)) hready
  refine ⟨t.advance, ?_, ht.phase, ht.fault.trans (hinv.fault_eq_none (by rw [hphase]; nofun)), ht.buf, ht.rd,
    ht.cmd, ht.sink.trans ?_⟩
  · rw [Nat.add_assoc, run_add haccept]
    exact hrun
  · exact congrArg (s.sink ++ ·) (List.take_of_length_le (length_tx s.cfg i.command).le)

/-- Settles O12: the definitions by their own equations, the reference values by arithmetic from SYMLEN = 199. -/
theorem referenceConstants : Obligations.ReferenceConstants := by
  unfold Obligations.ReferenceConstants
  refine ⟨fun c => ⟨rfl, rfl, rfl, rfl, rfl, rfl, rfl, rfl⟩, fun flush ports => ?_⟩
  have hsym : Config.symLen ⟨150000, 751, flush, ports⟩ = 199 := by norm_num [Config.symLen]
  simp only [Config.short, Config.long, Config.blankLen, Config.bodyLen, Config.repStride, Config.txSamples,
    Config.txBytes, hsym, nBits, groupSlots, addressSlots, paddingSlots, nTx, repeats, true_and,
    and_true]
  exact ⟨by omega, by omega⟩

/-- Settles O41: each of the four disjuncts breaks one condition of R12, and a step in such a configuration is refused
before anything else is looked at. -/
theorem illegalConfigurationRefused : Obligations.IllegalConfigurationRefused := by
  unfold Obligations.IllegalConfigurationRefused
  intro s hbad
  refine step_of_illegal (Bool.eq_false_iff.mpr fun hwf => ?_)
  obtain ⟨hbit, hrate, hflush, hports⟩ := s.cfg.wf_iff.mp hwf
  omega

end Sys2Proof.Machine

/-! ## State (10_state.md): the invariant of R36, what each transition writes, and the output ports -/

/-! ### The rows of the invariant, and the blocks that meet them (R36) -/

namespace Sys2Proof.Machine

/-- Reading a buffer that holds exactly these bytes is indexing them. -/
theorem Memory.read_ofBytes (vs : List Byte) (a : Nat) : (Memory.ofBytes vs).read a = vs[a]? := by
  rw [Memory.read_of_wf (Memory.wf_ofBytes vs), Memory.ofBytes, Memory.bytes_cellsFrom]

/-- A buffer in canonical form is the one its bytes make. -/
theorem Memory.eq_ofBytes_of_bytes {m : Memory} {vs : List Byte} (hm : m.wf = true) (h : m.bytes = vs) :
    m = Memory.ofBytes vs :=
  Memory.eq_of_bytes_eq hm (Memory.wf_ofBytes vs) (h.trans (Memory.bytes_cellsFrom 0 vs).symm)

/-- The row of SYNTH: the first SIDX samples of the Command in CMD are in the buffer. -/
theorem State.Inv.synth_row {s : State} (h : s.Inv) (hphase : s.phase = .synth) :
    s.sidx < s.cfg.txSamples ∧ s.rd = 0 ∧
      ∃ c, s.command = some c ∧ s.buf = Memory.ofBytes (bytesOf ((txs s.cfg c).take s.sidx)) := by
  have hrow := h.phaseInv
  simp only [State.PhaseInv, hphase] at hrow
  obtain ⟨hlt, hrd, c, hc, hbytes⟩ := hrow
  exact ⟨hlt, hrd, c, hc, Memory.eq_ofBytes_of_bytes h.bufWf hbytes⟩

/-- The row of DRAIN: the whole transmission of the Command in CMD is in the buffer. -/
theorem State.Inv.drain_row {s : State} (h : s.Inv) (hphase : s.phase = .drain) :
    s.sidx = s.cfg.txSamples ∧ ∃ c, s.HoldsTransmission c := by
  have hrow := h.phaseInv
  simp only [State.PhaseInv, hphase] at hrow
  obtain ⟨hsidx, c, hc, hbytes⟩ := hrow
  exact ⟨hsidx, c, h.config, hphase, hc, Memory.eq_ofBytes_of_bytes h.bufWf hbytes⟩

/-- In SYNTH the next sample goes to `BUF[2 * SIDX]`, the end of the buffer (R62). -/
theorem State.Inv.length_buf_synth {s : State} (h : s.Inv) (hphase : s.phase = .synth) :
    s.buf.length = 2 * s.sidx := by
  obtain ⟨hlt, -, c, -, hbuf⟩ := h.synth_row hphase
  rw [hbuf, Memory.length_ofBytes, length_bytesOf, List.length_take_of_le (by rw [length_txs]; exact hlt.le)]

/-- In a block that holds a transmission, the buffer is full and reads as the transmission does. -/
theorem State.HoldsTransmission.length_buf {s : State} {c : Command} (h : s.HoldsTransmission c) :
    s.buf.length = s.cfg.txBytes := by
  rw [h.buf, Memory.length_ofBytes, length_tx]

theorem State.HoldsTransmission.read_buf {s : State} {c : Command} (h : s.HoldsTransmission c) (a : Nat) :
    s.buf.read a = (tx s.cfg c)[a]? := by
  rw [h.buf, Memory.read_ofBytes]

/-- The invariant speaks of the block and of the number of ports, and of nothing else. -/
theorem State.Inv.of_sameBlock {s t : State} (h : s.Inv) (hb : s.SameBlock t) (hreq : t.req.length = s.req.length) :
    t.Inv where
  config := by rw [hb.cfg]; exact h.config
  bufWf := by rw [hb.buf]; exact h.bufWf
  bufEven := by rw [hb.buf]; exact h.bufEven
  bufCap := by rw [hb.buf, hb.cfg]; exact h.bufCap
  sidxMax := by rw [hb.sidx, hb.cfg]; exact h.sidxMax
  rdMax := by rw [hb.rd, hb.cfg]; exact h.rdMax
  ports := by rw [hreq, hb.cfg]; exact h.ports
  faultHalt := by rw [hb.fault, hb.phase]; exact h.faultHalt
  phaseInv := by
    have hrow := h.phaseInv
    unfold State.PhaseInv at hrow ⊢
    rw [hb.phase, hb.buf, hb.rd, hb.sidx, hb.cfg, hb.command]
    exact hrow

/-- The environment's move keeps the invariant. -/
theorem State.Inv.advance {s : State} (h : s.Inv) : s.advance.Inv :=
  h.of_sameBlock s.advance_sameBlock s.advance_ports

/-- An idle block with an empty buffer meets the invariant (R36's row of IDLE). -/
theorem State.inv_of_idle {s : State} (hwf : s.cfg.wf = true) (hphase : s.phase = .idle) (hfault : s.fault = .none)
    (hbuf : s.buf = []) (hrd : s.rd = 0) (hsidx : s.sidx ≤ s.cfg.txSamples) (hports : s.req.length = s.cfg.nPorts) :
    s.Inv where
  config := hwf
  bufWf := by rw [hbuf]; exact Memory.wf_nil
  bufEven := by rw [hbuf]; rfl
  bufCap := by rw [hbuf]; exact Nat.zero_le _
  sidxMax := hsidx
  rdMax := by
    have := Config.txSamples_pos hwf
    unfold Config.txBytes; omega
  ports := hports
  faultHalt := by rw [hfault, hphase]; exact ⟨nofun, nofun⟩
  phaseInv := by
    simp only [State.PhaseInv, hphase]
    exact ⟨hbuf, hrd⟩

/-- A block with the first `n` samples of its Command in the buffer meets the invariant (R36's rows of SYNTH and
DRAIN). -/
theorem State.inv_synthesized {s : State} {c : Command} {n : Nat} (hwf : s.cfg.wf = true) (hc : s.command = some c)
    (hn : n ≤ s.cfg.txSamples) (hrd : s.rd = 0) (hfault : s.fault = .none) (hports : s.req.length = s.cfg.nPorts) :
    (s.synthesized c n).Inv where
  config := hwf
  bufWf := Memory.wf_ofBytes _
  bufEven := by simp [State.synthesized]
  bufCap := by
    simp only [State.synthesized, Memory.length_ofBytes, length_bytesOf, List.length_take, length_txs, Config.txBytes]
    omega
  sidxMax := hn
  rdMax := by
    have := Config.txSamples_pos hwf
    simp only [State.synthesized, hrd, Config.txBytes]
    omega
  ports := hports
  faultHalt := by
    simp only [State.synthesized, hfault]
    split <;> exact ⟨nofun, nofun⟩
  phaseInv := by
    by_cases hlast : n = s.cfg.txSamples
    · simp only [State.PhaseInv, State.synthesized, if_pos hlast]
      refine ⟨hlast, c, hc, ?_⟩
      rw [Memory.ofBytes, Memory.bytes_cellsFrom, tx, List.take_of_length_le (by rw [length_txs, hlast])]
    · simp only [State.PhaseInv, State.synthesized, if_neg hlast]
      exact ⟨by omega, hrd, c, hc, Memory.bytes_cellsFrom 0 _⟩

/-- The pairs of bytes that a buffer in HALT consists of make it a whole number of samples long. -/
theorem length_flatMap_pair (qs : List (Byte × Byte)) : (qs.flatMap fun q => [q.1, q.2]).length = 2 * qs.length := by
  simp [List.length_flatMap, Nat.mul_comm]

/-- The fault entry leaves every element within its range (R205, R20; log 6). -/
theorem State.Inv.raiseSinkFault {s : State} (h : s.Inv) : s.raiseSinkFault.Inv where
  config := h.config
  bufWf := Memory.wf_ofBytes _
  bufEven := by rw [State.raiseSinkFault_buf, Memory.length_ofBytes, length_flatMap_pair, Nat.mul_mod_right]
  bufCap := by
    rw [State.raiseSinkFault_buf, Memory.length_ofBytes, length_flatMap_pair]
    exact Nat.mul_le_mul_left 2 (List.length_take_le _ _)
  sidxMax := Nat.le_of_lt_succ (Nat.mod_lt _ (Nat.succ_pos _))
  rdMax := Nat.mod_lt _ h.rdMax.pos
  ports := h.ports
  faultHalt := ⟨fun _ => rfl, fun _ => rfl⟩
  phaseInv := trivial

/-- A reset step leads to the row of IDLE (R220). -/
theorem State.Inv.resetStep {s : State} (h : s.Inv) : s.resetStep.Inv :=
  State.inv_of_idle h.config rfl rfl rfl rfl (Nat.zero_le _) h.ports

/-! ### The transitions keep the invariant -/

/-- Accept leaves the block at the beginning of a synthesis (R183). -/
theorem State.Inv.accept {s : State} {p : Nat} {w : CmdWord} {i : Instr} (h : s.Inv) (hphase : s.phase = .idle)
    (hdecode : decode w = some i) : (s.accept p w).Inv := by
  rw [← State.synthesized_zero_accept h.config p w i.command]
  exact State.inv_synthesized h.config (State.command_of_decode hdecode) (Nat.zero_le _) rfl
    (h.fault_eq_none (by rw [hphase]; nofun)) (by rw [State.accept_req, List.length_set]; exact h.ports)

/-- Under the invariant a synthesize step takes the first SIDX samples to the first `SIDX + 1` (R185). -/
theorem State.Inv.afterSynth_eq_synthesized {s : State} {c : Command} (h : s.Inv) (hphase : s.phase = .synth)
    (hc : s.command = some c) : s.afterSynth c = s.synthesized c (s.sidx + 1) := by
  obtain ⟨hlt, -, c', hc', hbuf⟩ := h.synth_row hphase
  obtain rfl : c' = c := Option.some.inj (hc'.symm.trans hc)
  rw [State.afterSynth, State.synthesized, ← ofBytes_take_append_sample h.config c' hlt, ← hbuf]

/-- Every transition of the block keeps the invariant (R36). -/
theorem State.Transition.keeps_inv {s u : State} (htr : s.Transition u) (h : s.Inv) : u.Inv := by
  cases htr with
  | accept p w i hphase _ _ hdecode => exact h.accept hphase hdecode
  | synthesize c hphase hcmd _ hlt =>
    obtain ⟨-, hrd, -⟩ := h.synth_row hphase
    rw [h.afterSynth_eq_synthesized hphase hcmd]
    exact State.inv_synthesized h.config hcmd hlt hrd (h.fault_eq_none (by rw [hphase]; nofun)) h.ports
  | deliver v hphase _ _ _ _ hlt =>
    have hrow : ({ s.sinkWrite v with rd := s.rd + 1 } : State).PhaseInv := by
      have hrow := h.phaseInv
      simp only [State.PhaseInv, hphase] at hrow
      simp only [State.PhaseInv, State.sinkWrite_phase, hphase]
      exact hrow
    exact ⟨h.config, h.bufWf, h.bufEven, h.bufCap, h.sidxMax, hlt, h.ports, h.faultHalt, hrow⟩
  | lastByte v hphase =>
    exact State.inv_of_idle h.config rfl (h.fault_eq_none (by rw [hphase]; nofun)) rfl rfl h.sidxMax h.ports
  | sinkFault => exact h.raiseSinkFault
  | nothingPending => exact h
  | slowSink => exact h
  | halted => exact h

/-! ### What each transition writes, and what it leaves unchanged (R20 to R34) -/

/-- A step without reset that goes on is a transition of the block, and then the environment's move. -/
theorem transition_of_step {s t : State} (hrst : s.rst = false) (h : step s = .next t) :
    ∃ u, s.Transition u ∧ t = u.advance := by
  obtain ⟨-, ⟨hrst', -⟩ | ⟨-, htr⟩⟩ := step_cases h
  · rw [hrst] at hrst'; cases hrst'
  · exact htr

/-- The configuration and what the environment sets: elements that no transition of the block writes (R29, R31). -/
structure State.SameInputs (s t : State) : Prop where
  cfg      : t.cfg = s.cfg
  rst      : t.rst = s.rst
  outReady : t.outReady = s.outReady
  sinkFail : t.sinkFail = s.sinkFail
  arb      : t.arb = s.arb
  env      : t.env = s.env

theorem State.SameInputs.refl (s : State) : s.SameInputs s := ⟨rfl, rfl, rfl, rfl, rfl, rfl⟩

theorem State.sameInputs_accept (s : State) (p : Nat) (w : CmdWord) : s.SameInputs (s.accept p w) :=
  ⟨rfl, rfl, rfl, rfl, rfl, rfl⟩

theorem State.Transition.sameInputs {s u : State} (h : s.Transition u) : s.SameInputs u := by
  cases h with
  | accept p w => exact s.sameInputs_accept p w
  | synthesize | deliver | lastByte | sinkFault => exact ⟨rfl, rfl, rfl, rfl, rfl, rfl⟩
  | nothingPending | slowSink | halted => exact .refl s

/-- CMD is written by accept, and unspecified after a sink fault (R21, R205). -/
theorem State.Transition.writes_cmd {s u : State} (h : s.Transition u) (hne : u.cmd ≠ s.cmd) :
    (s.phase = .idle ∧ u.phase = .synth ∧ ∃ p, s.granted = some p ∧ s.reqAt p = some u.cmd) ∨
      (s.phase = .drain ∧ u.phase = .halt) := by
  cases h with
  | accept p w i hphase hgrant hword => exact .inl ⟨hphase, rfl, p, hgrant, hword⟩
  | sinkFault hphase => exact .inr ⟨hphase, rfl⟩
  | _ => exact absurd rfl hne

/-- SIDX is written by accept and synthesize, and unspecified after a sink fault (R24, R205). -/
theorem State.Transition.writes_sidx {s u : State} (h : s.Transition u) (hne : u.sidx ≠ s.sidx) :
    (s.phase = .idle ∧ u.phase = .synth ∧ u.sidx = 0) ∨ (s.phase = .synth ∧ u.sidx = s.sidx + 1) ∨
      (s.phase = .drain ∧ u.phase = .halt) := by
  cases h with
  | accept p w i hphase => exact .inl ⟨hphase, rfl, rfl⟩
  | synthesize c hphase => exact .inr (.inl ⟨hphase, rfl⟩)
  | sinkFault hphase => exact .inr (.inr ⟨hphase, rfl⟩)
  | _ => exact absurd rfl hne

/-- RD is written by accept and the drain, and unspecified after a sink fault (R33, R205). -/
theorem State.Transition.writes_rd {s u : State} (h : s.Transition u) (hne : u.rd ≠ s.rd) :
    (s.phase = .idle ∧ u.phase = .synth ∧ u.rd = 0) ∨ (s.phase = .drain ∧ (u.rd = s.rd + 1 ∨ u.rd = 0)) ∨
      (s.phase = .drain ∧ u.phase = .halt) := by
  cases h with
  | accept p w i hphase => exact .inl ⟨hphase, rfl, rfl⟩
  | deliver v hphase => exact .inr (.inl ⟨hphase, .inl rfl⟩)
  | lastByte v hphase => exact .inr (.inl ⟨hphase, .inr rfl⟩)
  | sinkFault hphase => exact .inr (.inr ⟨hphase, rfl⟩)
  | _ => exact absurd rfl hne

/-- The two cells of a sample. -/
theorem cellsFrom_sample_bytes (x : Sample) (a : Nat) :
    ∃ i q, x.bytes = [i, q] ∧ Memory.cellsFrom a x.bytes = [(a, i), (a + 1, q)] := by
  cases x with
  | full => exact ⟨iFull, qAny, rfl, rfl⟩
  | zero => exact ⟨iZero, qAny, rfl, rfl⟩

/-- BUF is emptied by accept and the end of the drain, grows by one sample in synthesize, and is unspecified after a sink
fault (R32, R62, R205). -/
theorem State.Transition.writes_buf {s u : State} (h : s.Transition u) (hne : u.buf ≠ s.buf) :
    (s.phase = .idle ∧ u.phase = .synth ∧ u.buf = []) ∨
      (s.phase = .synth ∧ ∃ c x y, s.command = some c ∧ (sampleAt s.cfg c s.sidx).bytes = [x, y] ∧
        u.buf = s.buf ++ [(s.appendAddress, x), (s.appendAddress + 1, y)]) ∨
      (s.phase = .drain ∧ u.phase = .idle ∧ u.buf = []) ∨ (s.phase = .drain ∧ u.phase = .halt) := by
  cases h with
  | accept p w i hphase => exact .inl ⟨hphase, rfl, rfl⟩
  | synthesize c hphase hcmd =>
    obtain ⟨x, y, hbytes, hcells⟩ := cellsFrom_sample_bytes (sampleAt s.cfg c s.sidx) s.appendAddress
    exact .inr (.inl ⟨hphase, c, x, y, hcmd, hbytes, congrArg (s.buf ++ ·) hcells⟩)
  | lastByte v hphase => exact .inr (.inr (.inl ⟨hphase, rfl, rfl⟩))
  | sinkFault hphase => exact .inr (.inr (.inr ⟨hphase, rfl⟩))
  | _ => exact absurd rfl hne

/-- FAULT is written by the fault entry alone (R28). -/
theorem State.Transition.writes_fault {s u : State} (h : s.Transition u) (hne : u.fault ≠ s.fault) :
    s.phase = .drain ∧ s.sinkFail = true ∧ u.fault = .sinkFault ∧ u.phase = .halt := by
  cases h with
  | sinkFault hphase hfail => exact ⟨hphase, hfail, rfl, rfl⟩
  | _ => exact absurd rfl hne

/-- SINK grows by the byte at RD in exactly the steps that deliver one (R34, R186). -/
theorem State.Transition.writes_sink {s u : State} (h : s.Transition u) :
    if s.phase = .drain ∧ s.outReady = true ∧ s.sinkFail = false then
      ∃ v, s.buf.read s.rd = some v ∧ u.sink = s.sink ++ [v]
    else u.sink = s.sink := by
  cases h with
  | deliver v hphase hready hfail hread => rw [if_pos ⟨hphase, hready, hfail⟩]; exact ⟨v, hread, rfl⟩
  | lastByte v hphase hready hfail hread => rw [if_pos ⟨hphase, hready, hfail⟩]; exact ⟨v, hread, rfl⟩
  | accept p w i hphase => simp [hphase]
  | synthesize c hphase => simp [hphase, State.afterSynth]
  | sinkFault hphase hfail => simp [hfail]
  | slowSink hphase hready => simp [hready]
  | nothingPending hphase | halted hphase => simp [hphase]

/-- The edges of the phase graph (R25, R182), each with its transition. -/
theorem State.Transition.phase_edge {s u : State} (h : s.Transition u) :
    (s.phase, u.phase) ∈ [(Phase.idle, Phase.idle), (.idle, .synth), (.synth, .synth), (.synth, .drain),
      (.drain, .drain), (.drain, .idle), (.drain, .halt), (.halt, .halt)] := by
  cases h with
  | synthesize c hphase =>
    simp only [State.afterSynth, hphase]
    split <;> decide
  | accept _ _ _ hphase | deliver _ hphase | lastByte _ hphase | sinkFault hphase | nothingPending hphase
  | slowSink hphase | halted hphase => simp [hphase]

/-! ### The frame of a Command, phase by phase -/

/-- Everything a Command that goes on can have done: in IDLE it is accepted or it is not presented, in every other phase
the block takes one of its transitions (log 11). -/
theorem exec_cases {i : Instr} {s t : State} (h : exec i s = .next t) :
    (s.phase = .idle ∧ ((s.portOf (encode i) = none ∧ t = s) ∨
      ∃ p, s.portOf (encode i) = some p ∧ t = s.accept p (encode i))) ∨
    (s.phase ≠ .idle ∧ s.Transition t) := by
  rw [exec_eq_runCommand] at h
  cases hp : s.phase with
  | idle =>
    refine .inl ⟨rfl, ?_⟩
    cases hport : s.portOf (encode i) with
    | none =>
      rw [State.runCommand_idle_none hp hport] at h
      cases h
      exact .inl ⟨rfl, rfl⟩
    | some p =>
      rw [State.runCommand_idle_some hp hport] at h
      cases h
      exact .inr ⟨p, rfl, rfl⟩
  | synth =>
    rw [State.runCommand_synth hp] at h
    obtain ⟨c, hc, hlen, hlt, rfl⟩ := State.synthesize_cases h
    exact .inr ⟨nofun, .synthesize c hp hc hlen hlt⟩
  | drain =>
    rw [State.runCommand_drain hp] at h
    exact .inr ⟨nofun, State.drain_cases hp h⟩
  | halt =>
    rw [State.runCommand_halt hp] at h
    cases h
    exact .inr ⟨nofun, .halted hp⟩

/-- Accept clears the port it takes from and no other (R183). -/
theorem State.reqAt_accept_of_ne {s : State} {p q : Nat} (w : CmdWord) (hne : q ≠ p) :
    (s.accept p w).reqAt q = s.reqAt q := by
  simp [State.reqAt, hne.symm]

/-- The frame of synthesize: the block's other elements, and every address outside the two bytes stored (R185, R62). -/
theorem State.Transition.synth_frame {s u : State} (h : s.Transition u) (hphase : s.phase = .synth) :
    u.cmd = s.cmd ∧ u.rd = s.rd ∧ u.fault = s.fault ∧ u.sink = s.sink ∧ u.req = s.req ∧ u.freeIx = s.freeIx ∧
      ∀ a, a < s.appendAddress ∨ s.appendAddress + 2 ≤ a → u.buf.read a = s.buf.read a := by
  cases h with
  | synthesize c =>
    refine ⟨rfl, rfl, rfl, rfl, rfl, rfl, fun a ha => ?_⟩
    exact Memory.read_append_frame s.buf s.appendAddress a _ (by rwa [Sample.length_bytes])
  | _ => simp_all only [reduceCtorEq]

/-- The frame of the drain while the sink does not fail: the buffer stays until the last byte empties it (R186, R187). -/
theorem State.Transition.drain_frame {s u : State} (h : s.Transition u) (hphase : s.phase = .drain)
    (hfail : s.sinkFail = false) :
    u.cmd = s.cmd ∧ u.sidx = s.sidx ∧ u.fault = s.fault ∧ u.req = s.req ∧ u.freeIx = s.freeIx ∧
      (u.phase = .drain → ∀ a, u.buf.read a = s.buf.read a) ∧ (u.phase ≠ .drain → u.phase = .idle ∧ u.buf = []) := by
  cases h with
  | deliver v => exact ⟨rfl, rfl, rfl, rfl, rfl, fun _ _ => rfl, fun hne => absurd hphase hne⟩
  | lastByte v => exact ⟨rfl, rfl, rfl, rfl, rfl, nofun, fun _ => ⟨rfl, rfl⟩⟩
  | slowSink => exact ⟨rfl, rfl, rfl, rfl, rfl, fun _ _ => rfl, fun hne => absurd hphase hne⟩
  | _ => simp_all only [reduceCtorEq]

/-- In HALT the only transition is the one that changes nothing (R206). -/
theorem State.Transition.eq_of_halt {s u : State} (h : s.Transition u) (hphase : s.phase = .halt) : u = s := by
  cases h with
  | halted => rfl
  | _ => simp_all only [reduceCtorEq]

/-! ### Where the block goes on (R202) -/

/-- A block that holds a transmission with RD in its range drains, waits or enters HALT, and does not fault. -/
theorem State.HoldsTransmission.drain_goes_on {s : State} {c : Command} (h : s.HoldsTransmission c)
    (hrd : s.rd < s.cfg.txBytes) : ∃ u, s.drain = .next u := by
  cases hfail : s.sinkFail with
  | true => exact ⟨_, State.drain_of_fail hfail⟩
  | false =>
    cases hready : s.outReady with
    | false => exact ⟨_, State.drain_of_slow hready hfail⟩
    | true =>
      have hv := (h.read_buf s.rd).trans (List.getElem?_eq_getElem (by rw [length_tx]; exact hrd))
      rw [State.drain_of_ready hready hfail]
      rcases Nat.lt_or_eq_of_le (Nat.succ_le_of_lt hrd) with hmore | hlast
      · exact ⟨_, State.drainByte_of_more h.length_buf hv hmore⟩
      · exact ⟨_, State.drainByte_of_last h.length_buf hv hlast⟩

/-- Outside IDLE no step from a state of the invariant stops. -/
theorem State.Inv.step_goes_on {s : State} (h : s.Inv) (hrst : s.rst = false) (hphase : s.phase ≠ .idle) :
    ∃ t, step s = .next t := by
  cases hp : s.phase with
  | idle => exact absurd hp hphase
  | synth =>
    obtain ⟨hlt, -, c, hc, -⟩ := h.synth_row hp
    exact ⟨_, step_synthesize h.config hrst hp hc (h.length_buf_synth hp) hlt⟩
  | drain =>
    obtain ⟨-, c, hb⟩ := h.drain_row hp
    obtain ⟨u, hu⟩ := hb.drain_goes_on h.rdMax
    refine ⟨u.advance, ?_⟩
    rw [step_of_command h.config hrst (State.fetch_drain hp) hb.command, State.runCommand_drain hp, hu, thenAdvance]
  | halt => exact ⟨_, step_of_fetch_none h.config hrst (State.fetch_halt hp)⟩

/-! ### The reset state (R38) -/

/-- In the reset state nothing is pending (log 18). -/
theorem State.reqAt_resetWith (cfg : Config) (p : Nat) : (State.resetWith cfg).reqAt p = none := by
  simp only [State.reqAt, State.resetWith, List.getElem?_replicate]
  split <;> rfl

/-- So nothing is granted in it. -/
theorem State.granted_resetWith (cfg : Config) : (State.resetWith cfg).granted = none := by
  rw [State.granted_eq_none_iff]
  intro p w _ hw
  rw [State.reqAt_resetWith] at hw
  cases hw

theorem State.inv_resetWith {cfg : Config} (hwf : cfg.wf = true) : (State.resetWith cfg).Inv :=
  State.inv_of_idle hwf rfl rfl rfl rfl (Nat.zero_le _) List.length_replicate

/-! ### The output ports (R31) -/

theorem State.reqReady_iff (s : State) (p : Nat) :
    s.reqReady p = true ↔ s.rst = false ∧ s.phase = .idle ∧ s.granted = some p := by
  simp [State.reqReady, and_assoc]

theorem State.outValid_iff (s : State) : s.outValid = true ↔ s.rst = false ∧ s.phase = .drain := by
  simp [State.outValid]

/-- While `out_valid` is 1 the block shows the byte at RD. -/
theorem State.outData_of_outValid {s : State} {v : Byte} (hvalid : s.outValid = true)
    (hread : s.buf.read s.rd = some v) : s.outData = v := by
  rw [State.outData, if_pos hvalid, hread]

/-! ### Submissions -/

/-- A submission on a free port of the machine is pending from then on (R35). -/
theorem getElem?_raiseRequest_join {ports p : Nat} {w : CmdWord} {req : List (Option CmdWord)} (hp : p < ports)
    (hlen : req.length = ports) (hfree : (req[p]?).join = none) :
    ((raiseRequest ports req (p, w))[p]?).join = some w := by
  rw [raiseRequest, if_pos ⟨hp, hfree⟩, getElem?_set_join, if_pos ⟨rfl, hlen ▸ hp⟩]

/-- The one submission of a move is pending after it, on a free port of the machine. -/
theorem State.reqAt_advance_submitted {s : State} {p : Nat} {w : CmdWord} (hsub : s.nextMove.submits = [(p, w)])
    (hp : p < s.cfg.nPorts) (hlen : s.req.length = s.cfg.nPorts) (hfree : s.reqAt p = none) :
    s.advance.reqAt p = some w := by
  rw [State.reqAt, State.advance, hsub]
  exact getElem?_raiseRequest_join hp hlen hfree

/-! ### The obligations -/

/-- Settles O54: a reset step establishes the invariant, each transition keeps it, and so does the environment's
move. -/
theorem everyStepKeepsInvariant : Obligations.EveryStepKeepsInvariant := by
  unfold Obligations.EveryStepKeepsInvariant
  intro s t h hstep
  obtain ⟨-, ⟨-, rfl⟩ | ⟨-, u, htr, rfl⟩⟩ := step_cases hstep
  · exact h.resetStep.advance
  · exact (htr.keeps_inv h).advance

/-- Settles O27: the buffer holds the transmission of CMD and RD is in its range. -/
theorem drainByteIsTransmissionByte : Obligations.DrainByteIsTransmissionByte := by
  unfold Obligations.DrainByteIsTransmissionByte
  intro s h hphase
  obtain ⟨-, c, hb⟩ := h.drain_row hphase
  have hbyte : (tx s.cfg c)[s.rd]? = some _ := List.getElem?_eq_getElem (by rw [length_tx]; exact h.rdMax)
  exact ⟨c, _, hb.command, hb.length_buf, (hb.read_buf s.rd).trans hbyte, hbyte⟩

/-- Settles O31: by what a Command can do, the frame of accept in IDLE and of the phase's transitions elsewhere. -/
theorem commandFrame : Obligations.CommandFrame := by
  unfold Obligations.CommandFrame
  intro i s t h
  obtain ⟨hphase, ⟨hport, rfl⟩ | ⟨p, hport, rfl⟩⟩ | ⟨hphase, htr⟩ := exec_cases h
  · simp [hphase, hport]
  · simpa [hphase, hport] using fun q hq => State.reqAt_accept_of_ne (encode i) hq
  · obtain ⟨hcfg, hrst, hready, hfail, harb, henv⟩ := htr.sameInputs
    exact ⟨⟨hcfg, hrst, hready, hfail, harb, henv⟩, fun hidle => absurd hidle hphase, htr.synth_frame, htr.drain_frame,
      htr.eq_of_halt⟩

/-- Settles O35: the block by the move's own definition, the request slots by what a list of submissions can do. -/
theorem environmentMoveTouchesOnlyInputs : Obligations.EnvironmentMoveTouchesOnlyInputs := by
  unfold Obligations.EnvironmentMoveTouchesOnlyInputs
  intro s
  refine ⟨⟨rfl, rfl, rfl, rfl, rfl, rfl, rfl, rfl⟩, fun p w => State.reqAt_advance, fun p w => State.advance_reqAt_new,
    fun mv rest henv => ?_⟩
  obtain ⟨hrst, hready, hfail, harb, hrest, hfree⟩ := State.advance_inputs henv
  refine ⟨hrest, hfree, hrst, hready, hfail, harb, fun p w hsub => ?_⟩
  exact State.reqAt_advance_submitted (by rw [State.nextMove, henv]; exact hsub)

/-- Settles O44: no transition, no reset step and no move of the environment writes the configuration. -/
theorem configurationNeverChanges : Obligations.ConfigurationNeverChanges := by
  unfold Obligations.ConfigurationNeverChanges
  intro s t hstep
  obtain ⟨-, ⟨-, rfl⟩ | ⟨-, u, htr, rfl⟩⟩ := step_cases hstep
  · rfl
  · exact htr.sameInputs.cfg

/-- Settles O45: element by element, by the transitions that write it; the environment's move writes none. -/
theorem elementsWrittenOnlyAsListed : Obligations.ElementsWrittenOnlyAsListed := by
  unfold Obligations.ElementsWrittenOnlyAsListed
  intro s t hrst hstep
  obtain ⟨u, htr, rfl⟩ := transition_of_step hrst hstep
  exact ⟨htr.writes_cmd, htr.writes_sidx, htr.writes_rd, htr.writes_buf, htr.writes_fault⟩

/-- Settles O46: each transition is an edge of the graph. -/
theorem phasesFollowTheGraph : Obligations.PhasesFollowTheGraph := by
  unfold Obligations.PhasesFollowTheGraph
  intro s t hrst hstep
  obtain ⟨u, htr, rfl⟩ := transition_of_step hrst hstep
  exact htr.phase_edge

/-- Settles O47: by what each transition does to SINK. -/
theorem sinkReceivesExactlyDrainedBytes : Obligations.SinkReceivesExactlyDrainedBytes := by
  unfold Obligations.SinkReceivesExactlyDrainedBytes
  intro s t hrst hstep
  obtain ⟨u, htr, rfl⟩ := transition_of_step hrst hstep
  exact htr.writes_sink

/-- Settles O56: a reset step always goes on, and so does every step outside IDLE under the invariant; in IDLE a granted
Command is accepted, and with nothing granted the word fetched, if there is one, is reserved. -/
theorem onlyReservedWordsStopTheBlock : Obligations.OnlyReservedWordsStopTheBlock := by
  unfold Obligations.OnlyReservedWordsStopTheBlock
  intro s h
  cases hrst : s.rst with
  | true => exact .inl ⟨_, step_of_rst h.config hrst⟩
  | false =>
    by_cases hphase : s.phase = .idle
    · cases hgrant : s.granted with
      | some p =>
        obtain ⟨-, w, i, hword, hdecode⟩ := State.granted_spec hgrant
        rw [← encode_of_decode hdecode] at hword
        exact .inl ⟨_, step_accept h.config hrst hphase hgrant hword (decode_encode i)⟩
      | none =>
        cases hfetch : s.fetch with
        | none => exact .inl ⟨_, step_of_fetch_none h.config hrst hfetch⟩
        | some w =>
          obtain ⟨hreserved, p, -, hword⟩ := State.fetch_idle_reserved hphase hgrant hfetch
          exact .inr ⟨w, step_of_decode_none h.config hrst hfetch hreserved, hphase, rfl, hreserved, p, hword⟩
    · exact .inl (h.step_goes_on hrst hphase)

/-- Settles O38: the elements by definition, and `req_ready` because nothing is granted. -/
theorem resetStateAsListed : Obligations.ResetStateAsListed := by
  unfold Obligations.ResetStateAsListed
  refine ⟨fun cfg => ⟨rfl, rfl, rfl, rfl, rfl, rfl, rfl, fun p => ?_, rfl, rfl⟩, rfl⟩
  simp [State.reqReady, State.granted_resetWith]

/-- Settles O51: the codes phase by phase and cause by cause, and the three ports by their own lemmas. -/
theorem outputPortsFollowState : Obligations.OutputPortsFollowState := by
  unfold Obligations.OutputPortsFollowState
  intro s
  refine ⟨?_, ?_, s.reqReady_iff, s.outValid_iff, fun v => State.outData_of_outValid⟩
  · rw [State.phasePort]
    cases s.phase <;> rfl
  · rw [State.faultPort]
    cases s.fault <;> rfl

/-- Settles O53: the reset state is idle with an empty buffer and has delivered no transmission. -/
theorem invariantHoldsAtReset : Obligations.InvariantHoldsAtReset := by
  unfold Obligations.InvariantHoldsAtReset
  exact ⟨fun cfg hwf => ⟨State.inv_resetWith hwf, [], rfl⟩, State.inv_resetWith (by decide)⟩

end Sys2Proof.Machine

/-! ## Memory (20_memory.md): the byte layout, the sink stream of R57, and which word and ports a step looks at -/

/-! ### The two bytes of a sample (R51 to R55) -/

namespace Sys2Proof

/-- The byte I tells a full-amplitude sample from a zero one, the byte Q does not (R52). -/
theorem Sample.bytes_eq (x : Sample) : x.bytes = [if x = .full then 255#8 else 127#8, 127#8] := by
  cases x <;> rfl

/-- Sample `n` of a sequence is its bytes `2n` and `2n + 1` (R52). -/
theorem getElem?_bytesOf {ss : List Sample} {n : Nat} {x : Sample} (h : ss[n]? = some x) :
    (bytesOf ss)[2 * n]? = some (if x = .full then 255#8 else 127#8) ∧ (bytesOf ss)[2 * n + 1]? = some 127#8 := by
  induction ss generalizing n with
  | nil => cases h
  | cons y ss ih =>
    rw [bytesOf_cons, Sample.bytes_eq]
    cases n with
    | zero =>
      obtain rfl : y = x := Option.some.inj h
      exact ⟨rfl, rfl⟩
    | succ n => exact ih h

/-- A byte of a sample sequence is one of the two values of R51, and at an odd index it is a Q byte. -/
theorem byte_of_getElem?_bytesOf {ss : List Sample} {k : Nat} {v : Byte} (h : (bytesOf ss)[k]? = some v) :
    (v = 255#8 ∨ v = 127#8) ∧ (k % 2 = 1 → v = 127#8) := by
  have hlt : k / 2 < ss.length := by
    have := (List.getElem?_eq_some_iff.mp h).1
    rw [length_bytesOf] at this
    omega
  obtain ⟨hI, hQ⟩ := getElem?_bytesOf (List.getElem?_eq_getElem hlt)
  rcases Nat.mod_two_eq_zero_or_one k with heven | hodd
  · rw [show 2 * (k / 2) = k by omega, h] at hI
    refine ⟨?_, fun hodd => by omega⟩
    rw [Option.some.inj hI]
    split
    · exact .inl rfl
    · exact .inr rfl
  · rw [show 2 * (k / 2) + 1 = k by omega, h] at hQ
    exact ⟨.inr (Option.some.inj hQ), fun _ => Option.some.inj hQ⟩

end Sys2Proof

namespace Sys2Proof.Machine

/-! ### Sequences of transmissions -/

@[simp] theorem transmissions_nil (cfg : Config) : transmissions cfg [] = [] := rfl

@[simp] theorem transmissions_singleton (cfg : Config) (c : Command) : transmissions cfg [c] = tx cfg c :=
  List.flatMap_singleton ..

@[simp] theorem transmissions_append (cfg : Config) (cs ds : List Command) :
    transmissions cfg (cs ++ ds) = transmissions cfg cs ++ transmissions cfg ds :=
  List.flatMap_append

/-- Transmissions one after the other are the bytes of their samples one after the other. -/
theorem transmissions_eq_bytesOf (cfg : Config) (cs : List Command) :
    transmissions cfg cs = bytesOf (cs.flatMap (txs cfg)) :=
  List.flatMap_assoc.symm

@[simp] theorem length_transmissions (cfg : Config) (cs : List Command) :
    (transmissions cfg cs).length = cs.length * cfg.txBytes := by
  simp [transmissions, List.length_flatMap]

/-! ### The shape of the sink stream, phase by phase (R57) -/

/-- In IDLE and SYNTH the sink has received whole transmissions. -/
theorem State.sinkShape_iff_whole {s : State} (hphase : s.phase = .idle ∨ s.phase = .synth) :
    s.SinkShape ↔ ∃ past, s.sink = transmissions s.cfg past := by
  rcases hphase with hphase | hphase <;> simp only [State.SinkShape, hphase]

/-- In DRAIN the first RD bytes of the present transmission follow them. -/
theorem State.sinkShape_iff_of_drain {s : State} (hphase : s.phase = .drain) :
    s.SinkShape ↔ ∃ past c, s.command = some c ∧ s.sink = transmissions s.cfg past ++ (tx s.cfg c).take s.rd := by
  simp only [State.SinkShape, hphase]

/-- In HALT a beginning of the transmission that was cut, never all of it, follows them (R205). -/
theorem State.sinkShape_iff_of_halt {s : State} (hphase : s.phase = .halt) :
    s.SinkShape ↔ ∃ past c n, n < s.cfg.txBytes ∧ s.sink = transmissions s.cfg past ++ (tx s.cfg c).take n := by
  simp only [State.SinkShape, hphase]

/-- The shape speaks of the block and the observation, so the environment's move keeps it. -/
theorem State.SinkShape.advance {s : State} (h : s.SinkShape) : s.advance.SinkShape := h

/-- Whatever the phase, some bytes, perhaps none, make the sink stream a sequence of whole transmissions. -/
theorem State.SinkShape.exists_append_eq_transmissions {s : State} (h : s.SinkShape) :
    ∃ cs rest, s.sink ++ rest = transmissions s.cfg cs := by
  have hcut : ∀ (past : List Command) (c : Command) (n : Nat),
      transmissions s.cfg past ++ (tx s.cfg c).take n ++ (tx s.cfg c).drop n = transmissions s.cfg (past ++ [c]) := by
    intro past c n
    rw [List.append_assoc, List.take_append_drop, transmissions_append, transmissions_singleton]
  cases hphase : s.phase with
  | idle | synth =>
    obtain ⟨past, hsink⟩ := (State.sinkShape_iff_whole (by simp [hphase])).mp h
    exact ⟨past, [], (List.append_nil _).trans hsink⟩
  | drain =>
    obtain ⟨past, c, -, hsink⟩ := (State.sinkShape_iff_of_drain hphase).mp h
    exact ⟨past ++ [c], (tx s.cfg c).drop s.rd, hsink ▸ hcut past c s.rd⟩
  | halt =>
    obtain ⟨past, c, n, -, hsink⟩ := (State.sinkShape_iff_of_halt hphase).mp h
    exact ⟨past ++ [c], (tx s.cfg c).drop n, hsink ▸ hcut past c n⟩

/-! ### The transitions keep the shape -/

/-- Under the invariant the byte the drain reads is the transmission's byte at RD (R36, R55). -/
theorem State.Inv.getElem?_tx_of_read {s : State} {c : Command} {v : Byte} (h : s.Inv) (hphase : s.phase = .drain)
    (hc : s.command = some c) (hread : s.buf.read s.rd = some v) : (tx s.cfg c)[s.rd]? = some v := by
  obtain ⟨-, c', hb⟩ := h.drain_row hphase
  obtain rfl : c' = c := Option.some.inj (hb.command.symm.trans hc)
  exact (hb.read_buf s.rd).symm.trans hread

/-- In DRAIN a delivered byte is the present transmission's next one. -/
theorem State.SinkShape.sink_append_read {s : State} {v : Byte} (hs : s.SinkShape) (h : s.Inv)
    (hphase : s.phase = .drain) (hread : s.buf.read s.rd = some v) :
    ∃ past c, s.command = some c ∧ s.sink ++ [v] = transmissions s.cfg past ++ (tx s.cfg c).take (s.rd + 1) := by
  obtain ⟨past, c, hc, hsink⟩ := (State.sinkShape_iff_of_drain hphase).mp hs
  refine ⟨past, c, hc, ?_⟩
  rw [hsink, List.take_add_one, h.getElem?_tx_of_read hphase hc hread, Option.toList_some, List.append_assoc]

/-- Every transition of the block keeps the shape of the sink stream (R57). -/
theorem State.Transition.keeps_sinkShape {s u : State} (htr : s.Transition u) (h : s.Inv) (hs : s.SinkShape) :
    u.SinkShape := by
  cases htr with
  | accept p w i hphase =>
    exact (State.sinkShape_iff_whole (.inr rfl)).mpr ((State.sinkShape_iff_whole (.inl hphase)).mp hs)
  | synthesize c hphase hc =>
    obtain ⟨past, hsink⟩ := (State.sinkShape_iff_whole (.inr hphase)).mp hs
    by_cases hlast : s.sidx + 1 = s.cfg.txSamples
    · obtain ⟨-, hrd, -⟩ := h.synth_row hphase
      refine (State.sinkShape_iff_of_drain (s := s.afterSynth c) (if_pos hlast)).mpr ⟨past, c, hc, ?_⟩
      simpa [State.afterSynth, hrd] using hsink
    · exact (State.sinkShape_iff_whole (s := s.afterSynth c) (.inr (if_neg hlast))).mpr ⟨past, hsink⟩
  | deliver v hphase _ _ hread =>
    exact (State.sinkShape_iff_of_drain (s := { s.sinkWrite v with rd := s.rd + 1 }) hphase).mpr
      (hs.sink_append_read h hphase hread)
  | lastByte v hphase _ _ hread _ hlast =>
    obtain ⟨past, c, -, hsink⟩ := hs.sink_append_read h hphase hread
    refine (State.sinkShape_iff_whole (.inl rfl)).mpr ⟨past ++ [c], hsink.trans ?_⟩
    rw [transmissions_append, transmissions_singleton, hlast, List.take_of_length_le (length_tx _ _).le]
    rfl
  | sinkFault hphase =>
    obtain ⟨past, c, -, hsink⟩ := (State.sinkShape_iff_of_drain hphase).mp hs
    exact (State.sinkShape_iff_of_halt rfl).mpr ⟨past, c, s.rd, h.rdMax, hsink⟩
  | nothingPending | slowSink | halted => exact hs

/-! ### What the sink is still owed (R190, R191) -/

theorem State.owed_synth {s : State} {c : Command} (hphase : s.phase = .synth) (hc : s.command = some c) :
    s.owed = tx s.cfg c := by
  simp only [State.owed, hphase, hc]

theorem State.owed_drain {s : State} {c : Command} (hphase : s.phase = .drain) (hc : s.command = some c) :
    s.owed = (tx s.cfg c).drop s.rd := by
  simp only [State.owed, hphase, hc]

theorem State.owed_idle {s : State} (hphase : s.phase = .idle) : s.owed = [] := by
  simp only [State.owed, hphase]

/-- In DRAIN the byte read is the first of those the sink is owed. -/
theorem State.Inv.owed_eq_cons_of_read {s : State} {v : Byte} (h : s.Inv) (hphase : s.phase = .drain)
    (hread : s.buf.read s.rd = some v) : ∃ c, s.command = some c ∧ s.owed = v :: (tx s.cfg c).drop (s.rd + 1) := by
  obtain ⟨-, c, hb⟩ := h.drain_row hphase
  obtain ⟨hlt, hv⟩ := List.getElem?_eq_some_iff.mp (h.getElem?_tx_of_read hphase hb.command hread)
  exact ⟨c, hb.command, by rw [State.owed_drain hphase hb.command, List.drop_eq_getElem_cons hlt, hv]⟩

/-- A grant in IDLE without reset accepts its Command (R183). -/
theorem State.acceptsNow_of_granted {s : State} {p : Nat} {w : CmdWord} {i : Instr} (hrst : s.rst = false)
    (hphase : s.phase = .idle) (hgrant : s.granted = some p) (hword : s.reqAt p = some w)
    (hdecode : decode w = some i) : s.acceptsNow = [i.command] := by
  rw [← encode_of_decode hdecode] at hword
  simp [State.acceptsNow, hrst, hphase, hgrant, hword]

/-- With nothing pending in IDLE nothing is accepted (R188). -/
theorem State.acceptsNow_of_nothing_pending {s : State} (hphase : s.phase = .idle)
    (hnone : ∀ p, p < s.cfg.nPorts → s.reqAt p = none) : s.acceptsNow = [] := by
  have hgrant : s.granted = none := s.granted_eq_none_iff.mpr fun p w hp hw => by
    rw [hnone p hp] at hw
    cases hw
  simp [State.acceptsNow, hphase, hgrant]

/-- Outside IDLE nothing is accepted (R60). -/
theorem State.acceptsNow_of_ne_idle {s : State} (hphase : s.phase ≠ .idle) : s.acceptsNow = [] := by
  unfold State.acceptsNow
  cases hp : s.phase with
  | idle => exact absurd hp hphase
  | synth | drain | halt => exact ite_self []

/-- A transition that is no fault entry moves bytes from what is owed to the sink, and adds to what is owed only the
transmission of the Command it accepts (R57, R190). -/
theorem State.Transition.sink_append_owed {s u : State} (htr : s.Transition u) (h : s.Inv) (hrst : s.rst = false)
    (hhalt : u.phase ≠ .halt) :
    u.sink ++ u.owed = s.sink ++ s.owed ++ transmissions s.cfg s.acceptsNow := by
  cases htr with
  | accept p w i hphase hgrant hword hdecode =>
    have howed : (s.accept p w).owed = tx s.cfg i.command :=
      State.owed_synth rfl (State.command_of_decode hdecode)
    rw [howed, State.owed_idle hphase, State.acceptsNow_of_granted hrst hphase hgrant hword hdecode,
      transmissions_singleton, State.accept_sink, List.append_nil]
  | synthesize c hphase hc =>
    have howed : (s.afterSynth c).owed = tx s.cfg c := by
      by_cases hlast : s.sidx + 1 = s.cfg.txSamples
      · obtain ⟨-, hrd, -⟩ := h.synth_row hphase
        rw [State.owed_drain (s := s.afterSynth c) (if_pos hlast) hc]
        exact congrArg (List.drop · _) hrd
      · exact State.owed_synth (s := s.afterSynth c) (if_neg hlast) hc
    rw [howed, State.owed_synth hphase hc, State.acceptsNow_of_ne_idle (by simp [hphase]), transmissions_nil,
      List.append_nil]
    rfl
  | deliver v hphase _ _ hread =>
    obtain ⟨c, hc, howed⟩ := h.owed_eq_cons_of_read hphase hread
    rw [howed, State.owed_drain (s := { s.sinkWrite v with rd := s.rd + 1 }) hphase hc,
      State.acceptsNow_of_ne_idle (by simp [hphase]), transmissions_nil, List.append_nil]
    exact List.append_assoc ..
  | lastByte v hphase _ _ hread _ hlast =>
    obtain ⟨c, hc, howed⟩ := h.owed_eq_cons_of_read hphase hread
    rw [howed, hlast, List.drop_of_length_le (length_tx _ _).le, State.owed_idle (State.endDrain_phase _),
      State.acceptsNow_of_ne_idle (by simp [hphase]), transmissions_nil]
    rfl
  | sinkFault => exact absurd rfl hhalt
  | nothingPending hphase hnone =>
    rw [State.acceptsNow_of_nothing_pending hphase hnone, transmissions_nil, List.append_nil]
  | slowSink hphase =>
    rw [State.acceptsNow_of_ne_idle (by simp [hphase]), transmissions_nil, List.append_nil]
  | halted hphase => exact absurd hphase hhalt

/-! ### Runs without reset -/

theorem noResetIn_succ_of_next {k : Nat} {s u : State} (h : noResetIn (k + 1) s) (hstep : step s = .next u) :
    s.rst = false ∧ noResetIn k u := by
  rwa [noResetIn, hstep] at h

theorem acceptedIn_succ_of_next {s u : State} (k : Nat) (hstep : step s = .next u) :
    acceptedIn (k + 1) s = s.acceptsNow ++ acceptedIn k u := by
  rw [acceptedIn, hstep]

/-- Without reset there is no way out of HALT (R206). -/
theorem phase_of_run_of_halt {k : Nat} {s t : State} (hquiet : noResetIn k s) (hrun : run k s = .next t)
    (hhalt : s.phase = .halt) : t.phase = .halt := by
  induction k generalizing s with
  | zero => cases hrun; exact hhalt
  | succ k ih =>
    obtain ⟨u, hstep, hrun⟩ := run_succ_cases hrun
    obtain ⟨hrst, hquiet⟩ := noResetIn_succ_of_next hquiet hstep
    obtain ⟨u, htr, rfl⟩ := transition_of_step hrst hstep
    exact ih hquiet hrun (htr.eq_of_halt hhalt ▸ hhalt)

/-! ### What exec looks at outside IDLE (R60, R208) -/

/-- The state with other submissions pending and another choice of the arbiter. -/
def State.withRequests (s : State) (r : List (Option CmdWord)) (a : Nat) : State := { s with req := r, arb := a }

@[simp] theorem State.withRequests_cfg (s : State) (r : List (Option CmdWord)) (a : Nat) :
    (s.withRequests r a).cfg = s.cfg := rfl
@[simp] theorem State.withRequests_command (s : State) (r : List (Option CmdWord)) (a : Nat) :
    (s.withRequests r a).command = s.command := rfl
@[simp] theorem State.withRequests_sidx (s : State) (r : List (Option CmdWord)) (a : Nat) :
    (s.withRequests r a).sidx = s.sidx := rfl
@[simp] theorem State.withRequests_appendAddress (s : State) (r : List (Option CmdWord)) (a : Nat) :
    (s.withRequests r a).appendAddress = s.appendAddress := rfl
@[simp] theorem State.withRequests_buf (s : State) (r : List (Option CmdWord)) (a : Nat) :
    (s.withRequests r a).buf = s.buf := rfl
@[simp] theorem State.withRequests_rd (s : State) (r : List (Option CmdWord)) (a : Nat) :
    (s.withRequests r a).rd = s.rd := rfl
@[simp] theorem State.withRequests_drainable (s : State) (r : List (Option CmdWord)) (a : Nat) :
    (s.withRequests r a).drainable = s.drainable := rfl

/-- The synthesize step does not look at them. -/
theorem State.withRequests_synthesize (s : State) (r : List (Option CmdWord)) (a : Nat) :
    (s.withRequests r a).synthesize = onNextState (State.withRequests · r a) s.synthesize := by
  simp only [State.synthesize, withRequests_command, withRequests_buf, withRequests_appendAddress, withRequests_cfg,
    withRequests_sidx]
  cases s.command with
  | none => rfl
  | some c =>
    cases hwrite : s.buf.write s.appendAddress (sampleAt s.cfg c s.sidx).bytes s.cfg.txBytes with
    | none | some m => simp only [hwrite]; rfl

/-- Nor does the drain read. -/
theorem State.withRequests_drainByte (s : State) (r : List (Option CmdWord)) (a : Nat) :
    (s.withRequests r a).drainByte = onNextState (State.withRequests · r a) s.drainByte := by
  simp only [State.drainByte, withRequests_buf, withRequests_rd, withRequests_drainable, withRequests_cfg]
  cases s.buf.read s.rd with
  | none => rfl
  | some v =>
    by_cases hd : s.drainable = true
    · by_cases hmore : s.rd + 1 < s.cfg.txBytes
      · simp only [hd, hmore, if_true]; rfl
      · simp only [hd, hmore, if_true, if_false]; rfl
    · simp only [hd]; rfl

/-- Nor does the drain step, whatever the sink does. -/
theorem State.withRequests_drain (s : State) (r : List (Option CmdWord)) (a : Nat) :
    (s.withRequests r a).drain = onNextState (State.withRequests · r a) s.drain := by
  cases hfail : s.sinkFail with
  | true => rw [drain_of_fail hfail, drain_of_fail (s := s.withRequests r a) hfail]; rfl
  | false =>
    cases hready : s.outReady with
    | true =>
      rw [drain_of_ready hready hfail, drain_of_ready (s := s.withRequests r a) hready hfail, s.withRequests_drainByte]
    | false => rw [drain_of_slow hready hfail, drain_of_slow (s := s.withRequests r a) hready hfail]; rfl

/-! ### The obligations -/

/-- Settles O55: a reset step empties the sink in IDLE, each transition keeps the shape, and so does the environment's
move. -/
theorem everyStepKeepsSinkShape : Obligations.EveryStepKeepsSinkShape := by
  unfold Obligations.EveryStepKeepsSinkShape
  intro s t h hs hstep
  obtain ⟨-, ⟨-, rfl⟩ | ⟨-, u, htr, rfl⟩⟩ := step_cases hstep
  · exact (State.sinkShape_iff_whole (.inl rfl)).mpr ⟨[], rfl⟩
  · exact (htr.keeps_sinkShape h hs).advance

/-- Settles O22: sample `n` of the transmission is the closed form, and its two bytes are at `2n` and `2n + 1`. -/
theorem byteLayout : Obligations.ByteLayout := by
  unfold Obligations.ByteLayout
  exact fun c cmd n hwf hn => getElem?_bytesOf (getElem?_txs hwf cmd hn)

/-- Settles O50: phase by phase, by what the step of that phase looks at. -/
theorem requestsIgnoredDuringTransmission : Obligations.RequestsIgnoredDuringTransmission := by
  unfold Obligations.RequestsIgnoredDuringTransmission
  intro i s r a hphase
  change exec i (s.withRequests r a) = onNextState (State.withRequests · r a) (exec i s)
  rw [exec_eq_runCommand, exec_eq_runCommand]
  cases hp : s.phase with
  | idle => exact absurd hp hphase
  | synth =>
    rw [State.runCommand_synth hp, State.runCommand_synth (s := s.withRequests r a) hp, s.withRequests_synthesize]
  | drain => rw [State.runCommand_drain hp, State.runCommand_drain (s := s.withRequests r a) hp, s.withRequests_drain]
  | halt =>
    rw [State.runCommand_halt hp, State.runCommand_halt (s := s.withRequests r a) hp]
    rfl

/-- Settles O57: the stream begins a sequence of whole transmissions, which is the bytes of a sample sequence; in IDLE it
is whole transmissions, each TX_BYTES long. -/
theorem sinkStreamAlignment : Obligations.SinkStreamAlignment := by
  unfold Obligations.SinkStreamAlignment
  intro s hs
  constructor
  · intro k v hv
    obtain ⟨cs, rest, hwhole⟩ := hs.exists_append_eq_transmissions
    have hbyte : (s.sink ++ rest)[k]? = some v :=
      (List.getElem?_append_left (List.getElem?_eq_some_iff.mp hv).1).trans hv
    rw [hwhole, transmissions_eq_bytesOf] at hbyte
    exact byte_of_getElem?_bytesOf hbyte
  · intro hphase
    obtain ⟨past, hsink⟩ := (State.sinkShape_iff_whole (.inl hphase)).mp hs
    rw [hsink, length_transmissions, Nat.mul_mod_left]

/-- Settles O60: by induction on the steps of the run. A step into HALT would leave the whole run there; every other
step adds the transmission of the Command it accepts, if it accepts one, to what is received and owed. -/
theorem transmissionsReachTheSinkInAcceptanceOrder : Obligations.TransmissionsReachTheSinkInAcceptanceOrder := by
  unfold Obligations.TransmissionsReachTheSinkInAcceptanceOrder
  intro k
  induction k with
  | zero =>
    intro s t _ _ hrun _
    cases hrun
    exact (List.append_nil _).symm
  | succ k ih =>
    intro s t h hquiet hrun hhalt
    obtain ⟨u, hstep, hrun⟩ := run_succ_cases hrun
    obtain ⟨hrst, hquiet⟩ := noResetIn_succ_of_next hquiet hstep
    rw [acceptedIn_succ_of_next k hstep, transmissions_append]
    obtain ⟨u, htr, rfl⟩ := transition_of_step hrst hstep
    have hgoes : u.phase ≠ .halt := fun hu => hhalt (phase_of_run_of_halt hquiet hrun hu)
    calc t.sink ++ t.owed
        = u.advance.sink ++ u.advance.owed ++ transmissions u.advance.cfg (acceptedIn k u.advance) :=
          ih u.advance t (htr.keeps_inv h).advance hquiet hrun hhalt
      _ = u.sink ++ u.owed ++ transmissions s.cfg (acceptedIn k u.advance) := by
          rw [u.advance_cfg, htr.sameInputs.cfg]; rfl
      _ = s.sink ++ s.owed ++ (transmissions s.cfg s.acceptsNow ++ transmissions s.cfg (acceptedIn k u.advance)) := by
          rw [htr.sink_append_owed h hrst hgoes, List.append_assoc (s.sink ++ s.owed)]

/-- Settles O30: the shared meaning looks at the word presented in IDLE alone. -/
theorem presentedCommandIgnoredOutsideIdle : Obligations.PresentedCommandIgnoredOutsideIdle := by
  unfold Obligations.PresentedCommandIgnoredOutsideIdle
  intro i j s hphase
  rw [exec_eq_runCommand, exec_eq_runCommand]
  cases hp : s.phase with
  | idle => exact absurd hp hphase
  | synth => rw [State.runCommand_synth hp, State.runCommand_synth hp]
  | drain => rw [State.runCommand_drain hp, State.runCommand_drain hp]
  | halt => rw [State.runCommand_halt hp, State.runCommand_halt hp]

/-- Settles O33: by what each phase fetches. -/
theorem fetchByPhase : Obligations.FetchByPhase := by
  unfold Obligations.FetchByPhase
  exact fun s => ⟨fun _ => State.fetch_idle_granted, (·.elim State.fetch_synth State.fetch_drain), State.fetch_halt⟩

end Sys2Proof.Machine

/-! ## Encoding (30_encoding.md): the fields of a word, decode against encode, the identifiers, reserved words -/

namespace Sys2Proof

/-! ### The three fields of a Command's word (R70 to R74, R76) -/

theorem Group.ordinal_lt (g : Group) : g.ordinal < 4 := by
  cases g <;> decide

theorem Address.ordinal_lt (a : Address) : a.ordinal < 3 := by
  cases a <;> decide

/-- The word's value: the three fields fit in five bits, so nothing is cut off. -/
theorem toNat_encodeCommand (c : Command) :
    (encodeCommand c).toNat = 8 * c.group.ordinal + 2 * c.address.ordinal + c.state.toNat := by
  have hg := c.group.ordinal_lt
  have ha := c.address.ordinal_lt
  have hs := c.state.toNat_lt
  rw [encodeCommand, BitVec.toNat_ofNat, Nat.mod_eq_of_lt (by omega)]

/-- Each slice of a Command's word is the ordinal of its field: the weights 8, 2 and 1 are where the slices begin. -/
theorem toNat_slices_encodeCommand (c : Command) :
    ((encodeCommand c).extractLsb' 3 2).toNat = c.group.ordinal ∧
      ((encodeCommand c).extractLsb' 1 2).toNat = c.address.ordinal ∧
      ((encodeCommand c).extractLsb' 0 1).toNat = c.state.toNat := by
  have hg := c.group.ordinal_lt
  have ha := c.address.ordinal_lt
  have hs := c.state.toNat_lt
  simp only [BitVec.extractLsb'_toNat, toNat_encodeCommand, Nat.shiftRight_eq_div_pow]
  exact ⟨by omega, by omega, by omega⟩

/-- The reserved words are those whose address field is 3 (R76, R77). -/
theorem decode_eq_none_iff (w : CmdWord) : decode w = none ↔ w.extractLsb' 1 2 = 3#2 := by
  rw [← Option.isSome_eq_false_iff.trans Option.isNone_iff_eq_none, decode_isSome_eq_legal,
    CmdWord.legal, bne_eq_false_iff_eq]

/-! ### Decode against encode (R75) -/

theorem decode_eq_some_iff (w : CmdWord) (i : Instr) : decode w = some i ↔ w = encode i :=
  ⟨fun h => (Machine.encode_of_decode h).symm, fun h => h ▸ decode_encode i⟩

/-- A table number is decoded as the five-bit word of its value, and one too large for that is no word (log 15). -/
theorem decodeTableWord_eq_some_iff (nbits w : Nat) (i : Instr) :
    decodeTableWord nbits w = some i ↔ w = (encode i).toNat := by
  rw [decodeTableWord]
  by_cases hw : w < 32
  · rw [if_pos hw, decode_eq_some_iff, ← BitVec.toNat_inj, BitVec.toNat_ofNat, Nat.mod_eq_of_lt hw]
  · have hword : (encode i).toNat < 32 := (encode i).isLt
    rw [if_neg hw]
    exact ⟨nofun, fun h => absurd (h ▸ hword) hw⟩

/-! ### The three characters of an identifier (R85 to R88) -/

theorem groupOfLetter_eq_some_iff (ch : Char) (g : Group) : groupOfLetter ch = some g ↔ ch = g.letter := by
  constructor
  · intro h
    unfold groupOfLetter at h
    split_ifs at h <;> cases h <;> assumption
  · rintro rfl
    cases g <;> rfl

theorem addressOfDigit_eq_some_iff (ch : Char) (a : Address) : addressOfDigit ch = some a ↔ ch = a.digit := by
  constructor
  · intro h
    unfold addressOfDigit at h
    split_ifs at h <;> cases h <;> assumption
  · rintro rfl
    cases a <;> rfl

theorem stateOfSign_eq_some_iff (ch : Char) (st : Bool) : stateOfSign ch = some st ↔ ch = signOf st := by
  constructor
  · intro h
    unfold stateOfSign at h
    split_ifs at h <;> cases h <;> assumption
  · rintro rfl
    cases st <;> rfl

/-- The identifier of an instruction names it (R85). -/
@[simp] theorem ofIdentifier_identifier (i : Instr) : ofIdentifier i.identifier = some i := by
  have hg := (groupOfLetter_eq_some_iff _ i.command.group).mpr rfl
  have ha := (addressOfDigit_eq_some_iff _ i.command.address).mpr rfl
  have hs := (stateOfSign_eq_some_iff _ i.command.state).mpr rfl
  simp only [Instr.identifier, ofIdentifier, hg, ha, hs]
  exact congrArg some i.command_instr

/-- Only its identifier names an instruction: three characters, each the one spelling of its field (R89, log 21). -/
theorem eq_identifier_of_ofIdentifier {cs : List Char} {i : Instr} (h : ofIdentifier cs = some i) :
    cs = i.identifier := by
  unfold ofIdentifier at h
  split at h
  · next l d s =>
    split at h
    · next g a st hg ha hs =>
      cases h
      rw [Instr.identifier, Command.instr_command, (groupOfLetter_eq_some_iff l g).mp hg,
        (addressOfDigit_eq_some_iff d a).mp ha, (stateOfSign_eq_some_iff s st).mp hs]
    · cases h
  · cases h

/-! ### The obligations -/

/-- Settles O3: words by `decode_encode`, table numbers by their value, identifiers character by character. -/
theorem decodeEncodeAgree : Obligations.DecodeEncodeAgree := by
  unfold Obligations.DecodeEncodeAgree
  exact ⟨decode_encode, decodeTableWord_eq_some_iff,
    fun _ i => ⟨eq_identifier_of_ofIdentifier, fun h => h ▸ ofIdentifier_identifier i⟩⟩

/-- Settles O1: the 32 words, each decoded. -/
theorem opcodeMapAsListed : Obligations.OpcodeMapAsListed := by
  unfold Obligations.OpcodeMapAsListed
  decide

/-- Settles O2: a word that decodes is the word of its Command, whose slices and value are known. -/
theorem decodingIsTheThreeSlices : Obligations.DecodingIsTheThreeSlices := by
  unfold Obligations.DecodingIsTheThreeSlices
  refine fun w => ⟨decode_eq_none_iff w, fun i hdecode => ?_⟩
  obtain rfl := (decode_eq_some_iff w i).mp hdecode
  obtain ⟨hgroup, haddress, hstate⟩ := toNat_slices_encodeCommand i.command
  exact ⟨hgroup, haddress, hstate, toNat_encodeCommand i.command⟩

end Sys2Proof

namespace Sys2Proof.Machine

/-! ### Submissions and reserved words -/

theorem State.submitIdentifier_of_rejected {cs : List Char} (s : State) (p : Nat) (h : ofIdentifier cs = none) :
    s.submitIdentifier p cs = s := by
  rw [State.submitIdentifier, h]

theorem State.submitIdentifier_identifier (s : State) (p : Nat) (i : Instr) :
    s.submitIdentifier p i.identifier = s.submit (p, encode i) := by
  rw [State.submitIdentifier, ofIdentifier_identifier]

/-- With nothing granted in IDLE a word is still fetched if one is pending. -/
theorem State.exists_fetch_of_pending {s : State} {p : Nat} {w : CmdWord} (hphase : s.phase = .idle)
    (hgrant : s.granted = none) (hp : p < s.cfg.nPorts) (hword : s.reqAt p = some w) : ∃ v, s.fetch = some v := by
  rw [State.fetch_idle_none hphase hgrant, ← Option.isSome_iff_exists, List.findSome?_isSome_iff]
  exact ⟨p, (s.mem_portOrder p).mpr hp, by rw [hword]; rfl⟩

/-- Settles O4: the two answers of the Ingress to an identifier; `E` is no group letter. -/
theorem rejectedIdentifierChangesNothing : Obligations.RejectedIdentifierChangesNothing := by
  unfold Obligations.RejectedIdentifierChangesNothing
  refine ⟨rfl, fun s p cs => ⟨s.submitIdentifier_of_rejected p, ?_⟩⟩
  rintro i rfl
  exact s.submitIdentifier_identifier p i

/-- Settles O40: nothing is granted, so the word fetched is a pending reserved one, and the decoder refuses it. -/
theorem onlyReservedPendingIsRefused : Obligations.OnlyReservedPendingIsRefused := by
  unfold Obligations.OnlyReservedPendingIsRefused
  intro s p w hwf hrst hphase hp hword hreserved
  have hgrant : s.granted = none := s.granted_eq_none_iff.mpr hreserved
  obtain ⟨v, hfetch⟩ := State.exists_fetch_of_pending hphase hgrant hp hword
  obtain ⟨hdecode, q, hq, hpending⟩ := State.fetch_idle_reserved hphase hgrant hfetch
  exact ⟨q, v, hq, hpending, step_of_decode_none hwf hrst hfetch hdecode⟩

end Sys2Proof.Machine

/-! ## Symbol Encoder (40_symbol_encoder.md): a BitString symbol by symbol, where two of them differ, the 24 rules -/

namespace Sys2Proof

/-! ### The symbols in their slots (R104, R105) -/

/-- Symbol `j` of a sequence is the bits `2j` and `2j + 1` (R104). -/
theorem getElem?_flatMap_bits {ss : List Symbol} {j : Nat} {x : Symbol} (h : ss[j]? = some x) :
    (ss.flatMap Symbol.bits)[2 * j]? = x.bits[0]? ∧ (ss.flatMap Symbol.bits)[2 * j + 1]? = x.bits[1]? := by
  induction ss generalizing j with
  | nil => cases h
  | cons y ss ih =>
    cases j with
    | zero => cases h; cases x <;> exact ⟨rfl, rfl⟩
    | succ j => cases y <;> exact ih h

theorem getElem?_oneHot {n j : Nat} (ordinal : Nat) (h : j < n) :
    (oneHot n ordinal)[j]? = some (if j = ordinal then .mark else .pad) := by
  rw [oneHot, List.getElem?_map, List.getElem?_range h, Option.map_some]

@[simp] theorem length_oneHot (n ordinal : Nat) : (oneHot n ordinal).length = n := by simp [oneHot]

theorem getElem?_symbols_group (c : Command) {j : Nat} (h : j < 4) :
    (symbols c)[j]? = some (if j = c.group.ordinal then .mark else .pad) := by
  rw [symbols, List.append_assoc, List.append_assoc, List.getElem?_append_left (by rwa [length_oneHot])]
  exact getElem?_oneHot _ h

theorem getElem?_symbols_address (c : Command) {j : Nat} (hge : 4 ≤ j) (h : j < 7) :
    (symbols c)[j]? = some (if j - 4 = c.address.ordinal then .mark else .pad) := by
  have hslot : j - 4 < 3 := by omega
  rw [symbols, List.append_assoc, List.append_assoc, List.getElem?_append_right (by rwa [length_oneHot]),
    length_oneHot, List.getElem?_append_left (by rwa [length_oneHot])]
  exact getElem?_oneHot _ hslot

theorem length_group_and_address_slots (c : Command) :
    (oneHot groupSlots c.group.ordinal ++ oneHot addressSlots c.address.ordinal).length = 7 := by
  rw [List.length_append, length_oneHot, length_oneHot, groupSlots, addressSlots]

theorem getElem?_symbols_padding (c : Command) {j : Nat} (hge : 7 ≤ j) (h : j < 11) :
    (symbols c)[j]? = some .pad := by
  have hslot : j - 7 < paddingSlots := by rw [paddingSlots]; omega
  rw [symbols, List.append_assoc, List.getElem?_append_right (by rwa [length_group_and_address_slots]),
    length_group_and_address_slots, List.getElem?_append_left (by rwa [List.length_replicate]),
    List.getElem?_replicate_of_lt hslot]

theorem getElem?_symbols_state (c : Command) : (symbols c)[11]? = some (if c.state then .on else .off) := by
  have hlen : (oneHot groupSlots c.group.ordinal ++ oneHot addressSlots c.address.ordinal
      ++ List.replicate paddingSlots Symbol.pad).length = 11 := by
    rw [List.length_append, length_group_and_address_slots, List.length_replicate, paddingSlots]
  rw [symbols, ← hlen, List.getElem?_concat_length]

/-! ### The bits of a BitString (R106) -/

/-- A slot that holds a mark or a pad: its first bit is 0, its second bit tells the two apart. -/
theorem bits_of_mark_or_pad {c : Command} {j : Nat} {p : Prop} [Decidable p]
    (h : (symbols c)[j]? = some (if p then .mark else .pad)) :
    (bitString c)[2 * j]? = some false ∧ (bitString c)[2 * j + 1]? = some (decide ¬p) := by
  obtain ⟨hfirst, hsecond⟩ := getElem?_flatMap_bits h
  rw [bitString, hfirst, hsecond]
  by_cases hp : p <;> simp [hp, Symbol.bits]

theorem bits_of_group_slot (c : Command) {j : Nat} (h : j < 4) :
    (bitString c)[2 * j]? = some false ∧ (bitString c)[2 * j + 1]? = some (decide (j ≠ c.group.ordinal)) :=
  bits_of_mark_or_pad (getElem?_symbols_group c h)

theorem bits_of_address_slot (c : Command) {j : Nat} (hge : 4 ≤ j) (h : j < 7) :
    (bitString c)[2 * j]? = some false ∧ (bitString c)[2 * j + 1]? = some (decide (j - 4 ≠ c.address.ordinal)) :=
  bits_of_mark_or_pad (getElem?_symbols_address c hge h)

theorem bits_of_padding_slot (c : Command) {j : Nat} (hge : 7 ≤ j) (h : j < 11) :
    (bitString c)[2 * j]? = some false ∧ (bitString c)[2 * j + 1]? = some true :=
  getElem?_flatMap_bits (getElem?_symbols_padding c hge h)

/-- The state symbol is the state bit twice (R102, R103). -/
theorem bits_of_state_slot (c : Command) :
    (bitString c)[22]? = some c.state ∧ (bitString c)[23]? = some c.state := by
  obtain ⟨hfirst, hsecond⟩ := getElem?_flatMap_bits (getElem?_symbols_state c)
  cases hstate : c.state <;> rw [hstate] at hfirst hsecond <;> exact ⟨hfirst, hsecond⟩

/-- The fields of the twelve slots: group, address, padding, state (R104). -/
theorem slot_cases {j : Nat} (h : j < 12) : j < 4 ∨ (4 ≤ j ∧ j < 7) ∨ (7 ≤ j ∧ j < 11) ∨ j = 11 := by omega

/-- The first bit of every mark and every pad is 0. -/
theorem first_bit_of_slot (c : Command) {j : Nat} (h : j < 11) : (bitString c)[2 * j]? = some false := by
  obtain hgroup | ⟨hge, haddress⟩ | ⟨hge, hpadding⟩ | hstate := slot_cases (j := j) (by omega)
  · exact (bits_of_group_slot c hgroup).1
  · exact (bits_of_address_slot c hge haddress).1
  · exact (bits_of_padding_slot c hge hpadding).1
  · omega

/-- A reserved word has no BitString (R77). -/
theorem bitStringOfWord_of_decode_none {w : CmdWord} (h : decode w = none) : bitStringOfWord w = none := by
  rw [decode_eq_map, Option.map_eq_none_iff] at h
  rw [bitStringOfWord, h]

/-! ### Counting indices -/

/-- Where exactly the listed indices below `n` satisfy `p`, as many do as are listed. -/
theorem countP_range_eq_length {n : Nat} {l : List Nat} {p : Nat → Bool} (hnodup : l.Nodup)
    (hlt : ∀ k ∈ l, k < n) (hp : ∀ k, k < n → (p k = true ↔ k ∈ l)) : (List.range n).countP p = l.length := by
  have hperm : ((List.range n).filter p).Perm l := by
    refine (List.perm_ext_iff_of_nodup (List.nodup_range.filter p) hnodup).mpr fun k => ?_
    rw [List.mem_filter, List.mem_range]
    exact ⟨fun ⟨hk, hpk⟩ => (hp k hk).mp hpk, fun hk => ⟨hlt k hk, (hp k (hlt k hk)).mpr hk⟩⟩
  rw [List.countP_eq_length_filter, hperm.length_eq]

/-- A field whose second bits are 0 at one slot alone has one mark `00`. -/
theorem countP_mark_eq_one {n ordinal : Nat} {symbolAt : Nat → Option Bool × Option Bool} (hlt : ordinal < n)
    (h : ∀ j, j < n → symbolAt j = (some false, some (decide (j ≠ ordinal)))) :
    ((List.range n).countP fun j => symbolAt j == (some false, some false)) = 1 := by
  refine countP_range_eq_length (l := [ordinal]) (List.nodup_singleton _) (by simpa using hlt) fun j hj => ?_
  simp [h j hj]

/-! ### Where two BitStrings differ (R136) -/

theorem Group.ordinal_inj {g h : Group} : g.ordinal = h.ordinal ↔ g = h := by
  cases g <;> cases h <;> decide

theorem Address.ordinal_inj {a b : Address} : a.ordinal = b.ordinal ↔ a = b := by
  cases a <;> cases b <;> decide

theorem ordinals_lt (c d : Command) :
    c.group.ordinal < 4 ∧ d.group.ordinal < 4 ∧ c.address.ordinal < 3 ∧ d.address.ordinal < 3 :=
  ⟨c.group.ordinal_lt, d.group.ordinal_lt, c.address.ordinal_lt, d.address.ordinal_lt⟩

/-- Two one-hot fields differ exactly in the slots of their two marks. -/
theorem oneHot_bits_ne_iff (j x y : Nat) :
    some (decide (j ≠ x)) ≠ some (decide (j ≠ y)) ↔ x ≠ y ∧ (j = x ∨ j = y) := by
  rw [ne_eq, Option.some_inj, decide_eq_decide]
  omega

/-- The bits R136 names: those of the two marks of a field in which the Commands differ, and the two state bits. -/
def namedBits (c d : Command) : List Nat :=
  (if c.group = d.group then [] else [2 * c.group.ordinal + 1, 2 * d.group.ordinal + 1]) ++
    (if c.address = d.address then [] else [9 + 2 * c.address.ordinal, 9 + 2 * d.address.ordinal]) ++
    if c.state = d.state then [] else [22, 23]

theorem mem_namedBits (c d : Command) (k : Nat) :
    k ∈ namedBits c d ↔
      (c.group ≠ d.group ∧ (k = 2 * c.group.ordinal + 1 ∨ k = 2 * d.group.ordinal + 1)) ∨
        (c.address ≠ d.address ∧ (k = 9 + 2 * c.address.ordinal ∨ k = 9 + 2 * d.address.ordinal)) ∨
        (c.state ≠ d.state ∧ (k = 22 ∨ k = 23)) := by
  simp [namedBits]

theorem lt_of_mem_namedBits {c d : Command} {k : Nat} (h : k ∈ namedBits c d) : k < 24 := by
  have hlt := ordinals_lt c d
  rw [mem_namedBits] at h
  omega

/-- The three fields lie apart, and the two marks of a field in which the Commands differ are two. -/
theorem nodup_namedBits (c d : Command) : (namedBits c d).Nodup := by
  have hlt := ordinals_lt c d
  unfold namedBits
  split_ifs <;> simp [Group.ordinal_inj, Address.ordinal_inj, *] <;> omega

theorem length_namedBits_mem {c d : Command} (h : c ≠ d) : (namedBits c d).length ∈ [2, 4, 6] := by
  rcases c with ⟨g, a, s⟩
  rcases d with ⟨g', a', s'⟩
  unfold namedBits
  split_ifs <;> simp_all

/-- Two BitStrings differ in exactly the named bits, slot by slot (R136). -/
theorem bitString_ne_iff (c d : Command) {k : Nat} (hk : k < 24) :
    (bitString c)[k]? ≠ (bitString d)[k]? ↔ k ∈ namedBits c d := by
  have hlt := ordinals_lt c d
  rw [mem_namedBits, ← Group.ordinal_inj.ne, ← Address.ordinal_inj.ne]
  obtain ⟨j, rfl | rfl⟩ := Nat.even_or_odd' k
  · rcases lt_or_ge j 11 with hslot | hge
    · rw [first_bit_of_slot c hslot, first_bit_of_slot d hslot]
      grind
    · obtain rfl : j = 11 := by omega
      rw [(bits_of_state_slot c).1, (bits_of_state_slot d).1]
      grind
  · obtain hgroup | ⟨hge, haddress⟩ | ⟨hge, hpadding⟩ | rfl := slot_cases (j := j) (by omega)
    · rw [(bits_of_group_slot c hgroup).2, (bits_of_group_slot d hgroup).2, oneHot_bits_ne_iff]
      grind
    · rw [(bits_of_address_slot c hge haddress).2, (bits_of_address_slot d hge haddress).2, oneHot_bits_ne_iff]
      grind
    · rw [(bits_of_padding_slot c hge hpadding).2, (bits_of_padding_slot d hge hpadding).2]
      grind
    · rw [(bits_of_state_slot c).2, (bits_of_state_slot d).2]
      grind

/-- A BitString names its Command: Commands that differ have a named bit (R136). -/
theorem bitString_injective : Function.Injective bitString := by
  intro c d h
  by_contra hne
  obtain ⟨k, hk⟩ : ∃ k, k ∈ namedBits c d := by
    refine List.exists_mem_of_length_pos (Nat.pos_of_ne_zero fun hzero => ?_)
    have := hzero ▸ length_namedBits_mem hne
    contradiction
  exact (bitString_ne_iff c d (lt_of_mem_namedBits hk)).mpr hk (by rw [h])

/-! ### Counts of bits and of full-amplitude samples (R111 to R134, R172) -/

@[simp] theorem count_full_fullRun (n : Nat) : (fullRun n).count .full = n := List.count_replicate_self

@[simp] theorem count_full_zeroRun (n : Nat) : (zeroRun n).count .full = 0 := by
  simp [zeroRun, List.count_replicate]

@[simp] theorem count_full_bitSamples (c : Config) (v : Bool) : (bitSamples c v).count .full = c.pulseLength v := by
  rw [bitSamples, List.count_append, count_full_fullRun, count_full_zeroRun, Nat.add_zero]

/-- Each bit of a body contributes its pulse. -/
theorem count_full_body (c : Config) (bs : List Bool) :
    (body c bs).count .full = bs.count true * c.long + bs.count false * c.short := by
  induction bs with
  | nil => simp
  | cons v bs ih =>
    rw [body_cons, List.count_append, ih, count_full_bitSamples]
    cases v <;> simp [Config.pulseLength, Nat.succ_mul] <;> omega

/-- Six bodies and the pulses of the five continuation bits (R172). -/
theorem count_full_txs (c : Config) (cmd : Command) :
    (txs c cmd).count .full
      = 6 * ((bitString cmd).count true * c.long + (bitString cmd).count false * c.short) + 5 * c.short := by
  have hsep : (separator c).count .full = c.short := by
    rw [separator, List.count_append, count_full_bitSamples, count_full_zeroRun]
    rfl
  rw [txs_eq]
  simp only [List.count_append, List.count_flatten, List.map_replicate, List.sum_replicate, smul_eq_mul,
    count_full_zeroRun, count_full_body, hsep]
  omega

/-- The ones of a BitString: a pad in nine of the eleven slots, and the state symbol. -/
theorem count_true_bitString (c : Command) : (bitString c).count true = if c.state then 11 else 9 := by
  rcases c with ⟨_ | _ | _ | _, _ | _ | _, _ | _⟩ <;> rfl

theorem count_false_bitString (c : Command) : (bitString c).count false = if c.state then 13 else 15 := by
  have htrue := count_true_bitString c
  have htotal := List.count_true_add_count_false (bitString c)
  rw [length_bitString, nBits, groupSlots, addressSlots, paddingSlots] at htotal
  split_ifs at htrue ⊢ <;> omega

/-- R172 in the reference configuration, where the pulses are 140 and 59 samples long. -/
theorem count_full_txs_reference (cmd : Command) (flush ports : Nat) :
    (txs ⟨150000, 751, flush, ports⟩ cmd).count .full = if cmd.state then 14137 else 13165 := by
  obtain ⟨-, hshort, hlong, -⟩ := Machine.referenceConstants.2 flush ports
  rw [count_full_txs, count_true_bitString, count_false_bitString, hshort, hlong]
  cases cmd.state <;> rfl

theorem length_txs_reference (cmd : Command) (flush ports : Nat) :
    (txs ⟨150000, 751, flush, ports⟩ cmd).length = 36116 + 2 * flush := by
  obtain ⟨-, -, -, -, -, -, hsamples, -⟩ := Machine.referenceConstants.2 flush ports
  rw [length_txs, hsamples]

/-! ### Bits written as numbers -/

theorem count_map_toNat (bs : List Bool) (b : Bool) : (bs.map Bool.toNat).count b.toNat = bs.count b :=
  List.count_map_of_injective bs Bool.toNat (by decide) b

/-- A symbol of a BitString with its two bits written as numbers, as the rules write them. -/
theorem getElem?_map_toNat_pair {bs : List Bool} {j k : Nat} {x y : Bool}
    (h : bs[j]? = some x ∧ bs[k]? = some y) :
    ((bs.map Bool.toNat)[j]?, (bs.map Bool.toNat)[k]?) = (some x.toNat, some y.toNat) := by
  obtain ⟨hfirst, hsecond⟩ := h
  rw [List.getElem?_map, List.getElem?_map, hfirst, hsecond, Option.map_some, Option.map_some]

/-- A slot of a one-hot field as the rules write it: the mark `00` at the ordinal, the pad `01` elsewhere. -/
theorem getElem?_map_toNat_oneHot {bs : List Bool} {j k n ordinal : Nat}
    (h : bs[j]? = some false ∧ bs[k]? = some (decide (n ≠ ordinal))) :
    ((bs.map Bool.toNat)[j]?, (bs.map Bool.toNat)[k]?)
      = if n = ordinal then (some 0, some 0) else (some 0, some 1) := by
  rw [getElem?_map_toNat_pair h]
  by_cases hmark : n = ordinal <;> simp [hmark]

/-! ### The obligations -/

/-- Settles O5: the slots of the four fields, each by the symbol it holds. -/
theorem bitStringClosedForm : Obligations.BitStringClosedForm := by
  unfold Obligations.BitStringClosedForm
  exact fun c => ⟨length_bitString c, fun _ => bits_of_group_slot c, fun _ => bits_of_address_slot c,
    fun _ => bits_of_padding_slot c, bits_of_state_slot c⟩

/-- Settles O6: the marks of a one-hot field are counted by its ordinal, the other slots read off. -/
theorem bitStringHasOneMarkPerField : Obligations.BitStringHasOneMarkPerField := by
  unfold Obligations.BitStringHasOneMarkPerField
  refine ⟨fun c => ⟨length_bitString c, ?_, ?_, fun j hj => ?_, ?_⟩, fun _ => bitStringOfWord_of_decode_none⟩
  · exact countP_mark_eq_one c.group.ordinal_lt fun j hj => Prod.ext_iff.mpr (bits_of_group_slot c hj)
  · refine countP_mark_eq_one c.address.ordinal_lt fun j hj => ?_
    have hslot := bits_of_address_slot c (j := 4 + j) (by omega) (by omega)
    rw [Nat.add_sub_cancel_left] at hslot
    exact Prod.ext_iff.mpr hslot
  · exact Prod.ext_iff.mpr (bits_of_padding_slot c (j := 7 + j) (by omega) (by omega))
  · refine (Prod.ext_iff.mpr (bits_of_state_slot c)).trans (b := (some c.state, some c.state)) ?_
    cases c.state <;> rfl

/-- Settles O7: the named bits are the differing ones, and their list is without repetition and 2, 4 or 6 long. -/
theorem bitStringsDifferWhereNamed : Obligations.BitStringsDifferWhereNamed := by
  unfold Obligations.BitStringsDifferWhereNamed
  refine fun c d => ⟨fun h => bitString_injective h, fun hne => ?_, fun k hk => ?_⟩
  · rw [countP_range_eq_length (nodup_namedBits c d) (fun _ => lt_of_mem_namedBits)
      fun k hk => by rw [decide_eq_true_iff, bitString_ne_iff c d hk]]
    exact length_namedBits_mem hne
  · rw [bitString_ne_iff c d hk, mem_namedBits]

end Sys2Proof

namespace Sys2Proof.Machine

/-! ### The 24 rules (R111 to R134) -/

/-- The BitString of an accepted Command is that of its word (R22). -/
theorem State.bits_accept_encode (s : State) (p : Nat) (i : Instr) :
    (s.accept p (encode i)).bits = some (bitString i.command) := by
  rw [State.bits, State.accept_phase, State.accept_cmd, bitStringOfWord, decodeCommand_encode]

/-- A Command that a port presents in IDLE is accepted (R183). -/
theorem exec_accepts_presented {i : Instr} {s : State} {q : Nat} (hphase : s.phase = .idle) (hq : q < s.cfg.nPorts)
    (hword : s.reqAt q = some (encode i)) :
    ∃ p, s.portOf (encode i) = some p ∧ exec i s = .next (s.accept p (encode i)) := by
  obtain ⟨p, hp⟩ : ∃ p, s.portOf (encode i) = some p :=
    Option.ne_none_iff_exists'.mp fun hnone => (s.portOf_eq_none_iff _).mp hnone q hq hword
  exact ⟨p, hp, by rw [exec_eq_runCommand, State.runCommand_idle_some hphase hp]⟩

/-- What R111 to R134 have in common, for any Command: every value a rule lists is what the model computes for it. -/
theorem commandRule (i : Instr) :
    CommandRule i (encode i) ((bitString i.command).map Bool.toNat) (bitsToNat (bitString i.command))
      i.command.group.ordinal i.command.address.ordinal (if i.command.state then 11 else 9)
      (if i.command.state then 13 else 15) (if i.command.state then 14137 else 13165) := by
  unfold CommandRule
  refine ⟨rfl, decode_encode i, rfl, rfl, rfl, rfl, fun j hj => ?_, fun j hj => ?_, fun j hj => ?_, ?_, ?_, ?_,
    fun s p hphase hp hword => ?_,
    fun flush ports => ⟨length_txs_reference _ flush ports, count_full_txs_reference _ flush ports⟩⟩
  · exact getElem?_map_toNat_oneHot (bits_of_group_slot i.command hj)
  · have hslot := bits_of_address_slot i.command (j := 4 + j) (by omega) (by omega)
    rw [show 2 * (4 + j) = 8 + 2 * j by omega, show 8 + 2 * j + 1 = 9 + 2 * j by omega,
      Nat.add_sub_cancel_left] at hslot
    exact getElem?_map_toNat_oneHot hslot
  · have hslot := bits_of_padding_slot i.command (j := 7 + j) (by omega) (by omega)
    rw [show 2 * (7 + j) = 14 + 2 * j by omega, show 14 + 2 * j + 1 = 15 + 2 * j by omega] at hslot
    exact getElem?_map_toNat_pair hslot
  · rw [getElem?_map_toNat_pair (bits_of_state_slot i.command)]
    cases i.command.state <;> rfl
  · exact (count_map_toNat _ true).trans (count_true_bitString _)
  · exact (count_map_toNat _ false).trans (count_false_bitString _)
  · obtain ⟨q, -, hexec⟩ := exec_accepts_presented hphase hp hword
    exact ⟨_, hexec, rfl, s.bits_accept_encode q i, rfl, rfl⟩

/-! ### The obligations -/

/-- Settles O8: `commandRule` on each Command of group A; the values it computes are the ones listed. -/
theorem groupACommandsAsListed : Obligations.GroupACommandsAsListed := by
  unfold Obligations.GroupACommandsAsListed
  exact ⟨commandRule .a1On, commandRule .a1Off, commandRule .a2On, commandRule .a2Off, commandRule .a3On,
    commandRule .a3Off⟩

/-- Settles O9: `commandRule` on each Command of group B; the values it computes are the ones listed. -/
theorem groupBCommandsAsListed : Obligations.GroupBCommandsAsListed := by
  unfold Obligations.GroupBCommandsAsListed
  exact ⟨commandRule .b1On, commandRule .b1Off, commandRule .b2On, commandRule .b2Off, commandRule .b3On,
    commandRule .b3Off⟩

/-- Settles O10: `commandRule` on each Command of group C; the values it computes are the ones listed. -/
theorem groupCCommandsAsListed : Obligations.GroupCCommandsAsListed := by
  unfold Obligations.GroupCCommandsAsListed
  exact ⟨commandRule .c1On, commandRule .c1Off, commandRule .c2On, commandRule .c2Off, commandRule .c3On,
    commandRule .c3Off⟩

/-- Settles O11: `commandRule` on each Command of group D; the values it computes are the ones listed. -/
theorem groupDCommandsAsListed : Obligations.GroupDCommandsAsListed := by
  unfold Obligations.GroupDCommandsAsListed
  exact ⟨commandRule .d1On, commandRule .d1Off, commandRule .d2On, commandRule .d2Off, commandRule .d3On,
    commandRule .d3Off⟩

end Sys2Proof.Machine

/-! ## Pulse-Width Modulator (41_pulse_width_modulator.md): the run lengths of a bit, and the maximal runs of a body -/

namespace Sys2Proof

/-! ### The bounds of R142 -/

theorem Config.short_pos {c : Config} (h : c.wf = true) : 1 ≤ c.short := by
  have := Config.four_le_symLen h
  unfold Config.short; omega

theorem Config.three_le_long {c : Config} (h : c.wf = true) : 3 ≤ c.long := by
  have := Config.four_le_symLen h
  unfold Config.long Config.short; omega

/-- SHORT is three tenths of the symbol slot at most, so its complement is the longer run. -/
theorem Config.short_lt_long {c : Config} (h : c.wf = true) : c.short < c.long := by
  have := Config.four_le_symLen h
  unfold Config.long Config.short; omega

theorem Config.pulseLength_pos {c : Config} (h : c.wf = true) (v : Bool) : 1 ≤ c.pulseLength v := by
  cases v with
  | false => exact Config.short_pos h
  | true => exact Nat.one_le_of_lt (Config.three_le_long h)

/-- The pause of a bit is as long as the pulse of the opposite bit (R141). -/
theorem Config.pauseLength_eq_pulseLength_not (c : Config) (v : Bool) : c.pauseLength v = c.pulseLength (!v) := by
  cases v <;> rfl

theorem Config.pauseLength_pos {c : Config} (h : c.wf = true) (v : Bool) : 1 ≤ c.pauseLength v := by
  rw [c.pauseLength_eq_pulseLength_not]
  exact Config.pulseLength_pos h !v

end Sys2Proof

namespace Sys2Proof.Machine

/-! ### Maximal runs (R173) -/

@[simp] theorem runLengths_nil : runLengths [] = [] := rfl

/-- A sample continues the run that begins the rest. -/
theorem runLengths_cons_of_run {x : Sample} {n : Nat} {xs : List Sample} {rest : List (Sample × Nat)}
    (h : runLengths xs = (x, n) :: rest) : runLengths (x :: xs) = (x, n + 1) :: rest := by
  rw [runLengths, h]
  exact if_pos rfl

/-- The first run of a sequence is one of its first sample. -/
theorem exists_runLengths_cons (x : Sample) (xs : List Sample) : ∃ n rest, runLengths (x :: xs) = (x, n) :: rest := by
  rw [runLengths]
  split
  · exact ⟨1, [], rfl⟩
  · next y n rest _ =>
    by_cases hxy : x = y
    · exact ⟨n + 1, rest, by rw [if_pos hxy, hxy]⟩
    · exact ⟨1, (y, n) :: rest, if_neg hxy⟩

/-- A sample that the rest does not begin with is a run of its own. -/
theorem runLengths_cons_of_head?_ne {x : Sample} {xs : List Sample} (h : xs.head? ≠ some x) :
    runLengths (x :: xs) = (x, 1) :: runLengths xs := by
  cases xs with
  | nil => rfl
  | cons y ys =>
    obtain ⟨n, rest, hrun⟩ := exists_runLengths_cons y ys
    have hxy : x ≠ y := fun hxy => h (congrArg some hxy.symm)
    rw [runLengths, hrun]
    exact if_neg hxy

/-- A non-empty run in front of a sequence that does not begin with the same sample is one more maximal run. -/
theorem runLengths_replicate_append {x : Sample} {n : Nat} {ss : List Sample} (hn : 1 ≤ n) (h : ss.head? ≠ some x) :
    runLengths (List.replicate n x ++ ss) = (x, n) :: runLengths ss := by
  induction n, hn using Nat.le_induction with
  | base => exact runLengths_cons_of_head?_ne h
  | succ n _ ih => exact runLengths_cons_of_run ih

/-- A bit in front of a sequence that does not begin with a zero-amplitude sample adds its pulse and its pause. -/
theorem runLengths_bitSamples_append {c : Config} (hwf : c.wf = true) (v : Bool) {ss : List Sample}
    (h : ss.head? ≠ some .zero) :
    runLengths (bitSamples c v ++ ss) = (.full, c.pulseLength v) :: (.zero, c.pauseLength v) :: runLengths ss := by
  have hpause := Config.pauseLength_pos hwf v
  have hhead : (zeroRun (c.pauseLength v) ++ ss).head? ≠ some .full := by
    simp [zeroRun, List.head?_append, List.head?_replicate, Nat.ne_of_gt hpause]
  rw [bitSamples, List.append_assoc, fullRun, runLengths_replicate_append (Config.pulseLength_pos hwf v) hhead,
    zeroRun, runLengths_replicate_append hpause h]

/-- A body is empty or begins with a pulse. -/
theorem head?_body_ne_zero {c : Config} (hwf : c.wf = true) (bs : List Bool) : (body c bs).head? ≠ some .zero := by
  cases bs with
  | nil => nofun
  | cons v bs =>
    have hpulse := Config.pulseLength_pos hwf v
    simp [bitSamples, fullRun, List.head?_append, List.head?_replicate, Nat.ne_of_gt hpulse]

/-- The runs of a body: a pulse and a pause for each bit, in order (R149). -/
theorem runLengths_body {c : Config} (hwf : c.wf = true) (bs : List Bool) :
    runLengths (body c bs) = bs.flatMap fun v => [(.full, c.pulseLength v), (.zero, c.pauseLength v)] := by
  induction bs with
  | nil => rfl
  | cons v bs ih =>
    rw [body_cons, runLengths_bitSamples_append hwf v (head?_body_ne_zero hwf bs), ih, List.flatMap_cons]
    rfl

theorem length_runLengths_body {c : Config} (hwf : c.wf = true) (bs : List Bool) :
    (runLengths (body c bs)).length = 2 * bs.length := by
  simp [runLengths_body hwf, List.length_flatMap, Nat.mul_comm]

/-! ### The obligations -/

/-- Settles O13: from SYMLEN ≥ 4, the bounds of SHORT and LONG, which are the pulse and the pause of either bit. -/
theorem pulseAndPauseFillTheSlot : Obligations.PulseAndPauseFillTheSlot := by
  unfold Obligations.PulseAndPauseFillTheSlot
  intro c hwf
  exact ⟨Config.four_le_symLen hwf, Config.short_pos hwf, Config.three_le_long hwf, Config.short_lt_long hwf,
    fun v => ⟨c.pulse_add_pause v, Config.pulseLength_pos hwf v, Config.pauseLength_pos hwf v⟩⟩

/-- Settles O14: the length and the elements of a bit. -/
theorem bitSamplesMatchBitSample : Obligations.BitSamplesMatchBitSample := by
  unfold Obligations.BitSamplesMatchBitSample
  intro c v
  exact ⟨rfl, length_bitSamples c v, fun t ht => ⟨getElem?_bitSamples v ht, rfl⟩⟩

/-- Settles O15: the elements of a body, where an index below BODY_LEN lies in one of the 24 bits. -/
theorem bodyClosedForm : Obligations.BodyClosedForm := by
  unfold Obligations.BodyClosedForm
  intro c bs hwf hlen
  have hpos : 0 < c.symLen := Nat.lt_of_lt_of_le (by decide) (Config.four_le_symLen hwf)
  refine ⟨by rw [length_body, hlen], fun t ht => ?_⟩
  have hbody : t < bs.length * c.symLen := by rw [hlen]; exact ht
  have hbit : t / c.symLen < bs.length := (Nat.div_lt_iff_lt_mul hpos).mpr hbody
  rw [getElem?_body hpos bs hbody, List.getElem?_eq_getElem hbit, Option.map_some, List.getD_eq_getElem _ _ hbit]

/-- Settles O16: the runs of a body, two for each of its 24 bits, and the full-amplitude samples of its pulses. -/
theorem bodyAlternatesPulsesAndPauses : Obligations.BodyAlternatesPulsesAndPauses := by
  unfold Obligations.BodyAlternatesPulsesAndPauses
  intro c bs hwf hlen
  exact ⟨runLengths_body hwf bs, by rw [length_runLengths_body hwf, hlen], count_full_body c bs⟩

end Sys2Proof.Machine

/-! ## Framing Engine (42_framing_engine.md): the segments of a transmission, its bytes and its maximal runs -/

namespace Sys2Proof

/-! ### The segments in sequence (R166) -/

@[simp] theorem zeroRun_zero : zeroRun 0 = [] := rfl

/-- The first `k` bits of a body fill `k` symbol slots, so the bits from `k` on begin at the slot with that index. -/
theorem drop_body (c : Config) (bs : List Bool) (k : Nat) : (body c bs).drop (k * c.symLen) = body c (bs.drop k) := by
  induction bs generalizing k with
  | nil => simp
  | cons v bs ih =>
    cases k with
    | zero => simp
    | succ k =>
      rw [body_cons, Nat.succ_mul, Nat.add_comm, ← List.drop_drop, List.drop_left' (length_bitSamples c v), ih,
        List.drop_succ_cons]

/-- What follows the leading flush run and the first `r` repetitions. -/
theorem drop_txs (c : Config) (cmd : Command) {r : Nat} (hr : r ≤ 5) :
    (txs c cmd).drop (c.flushLen + r * c.repStride)
      = (List.replicate (5 - r) (body c (bitString cmd) ++ separator c)).flatten
        ++ (body c (bitString cmd) ++ zeroRun c.flushLen) := by
  have hsplit : List.replicate 5 (body c (bitString cmd) ++ separator c)
      = List.replicate r (body c (bitString cmd) ++ separator c)
        ++ List.replicate (5 - r) (body c (bitString cmd) ++ separator c) := by
    rw [List.replicate_append_replicate, Nat.add_sub_cancel' hr]
  have hlen : (List.replicate r (body c (bitString cmd) ++ separator c)).flatten.length = r * c.repStride := by
    rw [List.length_flatten, List.map_replicate, List.sum_replicate, smul_eq_mul, length_body_append_separator]
  rw [txs_eq, ← List.drop_drop, List.append_assoc, List.drop_left' (length_zeroRun _), hsplit, List.flatten_append,
    List.append_assoc, List.append_assoc, List.drop_left' hlen]

/-- Each repetition but the final one is a body, a continuation bit and a blank gap (R162 to R164). -/
theorem exists_drop_txs_eq_repetition (c : Config) (cmd : Command) {r : Nat} (hr : r < 5) :
    ∃ rest, (txs c cmd).drop (c.flushLen + r * c.repStride)
      = body c (bitString cmd) ++ (bitSamples c false ++ (zeroRun c.blankLen ++ rest)) := by
  obtain ⟨k, hk⟩ : ∃ k, 5 - r = k + 1 := ⟨4 - r, by omega⟩
  rw [drop_txs c cmd hr.le, hk, List.replicate_succ, List.flatten_cons, separator]
  simp only [List.append_assoc]
  exact ⟨_, rfl⟩

/-- The final repetition is a body alone; the trailing flush run follows it. -/
theorem drop_txs_final (c : Config) (cmd : Command) :
    (txs c cmd).drop (c.flushLen + 5 * c.repStride) = body c (bitString cmd) ++ zeroRun c.flushLen :=
  drop_txs c cmd (le_refl 5)

/-- Every repetition begins with the body. -/
theorem exists_drop_txs_eq_body (c : Config) (cmd : Command) {r : Nat} (hr : r < 6) :
    ∃ rest, (txs c cmd).drop (c.flushLen + r * c.repStride) = body c (bitString cmd) ++ rest := by
  rcases Nat.lt_succ_iff_lt_or_eq.mp hr with hlt | rfl
  · obtain ⟨rest, h⟩ := exists_drop_txs_eq_repetition c cmd hlt
    exact ⟨_, h⟩
  · exact ⟨_, drop_txs_final c cmd⟩

theorem drop_bodyLen_body_append (c : Config) (cmd : Command) (ss : List Sample) :
    (body c (bitString cmd) ++ ss).drop c.bodyLen = ss :=
  List.drop_left' (length_body_bitString c cmd)

/-- Bit `k` fills slot `k` of a body, whatever follows the body. -/
theorem take_drop_body_append {c : Config} {bs : List Bool} {k : Nat} {v : Bool} (h : bs[k]? = some v)
    (ss : List Sample) : ((body c bs ++ ss).drop (k * c.symLen)).take c.symLen = bitSamples c v := by
  obtain ⟨hk, hv⟩ := List.getElem?_eq_some_iff.mp h
  have hle : k * c.symLen ≤ (body c bs).length := by
    rw [length_body]
    exact Nat.mul_le_mul_right _ hk.le
  rw [List.drop_append_of_le_length hle, drop_body, List.drop_eq_getElem_cons hk, hv, body_cons, List.append_assoc,
    List.take_left' (length_bitSamples c v)]

/-! ### The bytes of a sample sequence (R51, R172) -/

/-- The byte 255 is the I byte of a full-amplitude sample and no other byte (R51). -/
theorem count_bytesOf (ss : List Sample) : (bytesOf ss).count 255#8 = ss.count .full := by
  induction ss with
  | nil => rfl
  | cons x ss ih =>
    rw [bytesOf_cons, List.count_append, ih, Sample.bytes_eq]
    cases x <;> simp [Nat.add_comm]

theorem byte_of_mem_bytesOf {ss : List Sample} {v : Byte} (h : v ∈ bytesOf ss) : v = 255#8 ∨ v = 127#8 := by
  obtain ⟨_, hk⟩ := List.mem_iff_getElem?.mp h
  exact (byte_of_getElem?_bytesOf hk).1

end Sys2Proof

namespace Sys2Proof.Machine

/-! ### The maximal runs of a transmission (R173) -/

/-- A bit begins with its pulse, which is not empty. -/
theorem head?_bitSamples_append_ne_zero {c : Config} (hwf : c.wf = true) (v : Bool) (ss : List Sample) :
    (bitSamples c v ++ ss).head? ≠ some .zero := by
  have hpulse := Config.pulseLength_pos hwf v
  simp [bitSamples, fullRun, List.head?_append, List.head?_replicate, Nat.ne_of_gt hpulse]

theorem head?_body_append_ne_zero {c : Config} (hwf : c.wf = true) (bs : List Bool) {ss : List Sample}
    (h : ss.head? ≠ some .zero) : (body c bs ++ ss).head? ≠ some .zero := by
  cases bs with
  | nil => exact h
  | cons v bs =>
    rw [body_cons, List.append_assoc]
    exact head?_bitSamples_append_ne_zero hwf v _

theorem head?_separator_append_ne_zero {c : Config} (hwf : c.wf = true) (ss : List Sample) :
    (separator c ++ ss).head? ≠ some .zero := by
  rw [separator, List.append_assoc]
  exact head?_bitSamples_append_ne_zero hwf false _

/-- A body in front of a sequence that does not begin with a zero-amplitude sample adds its own runs. -/
theorem runLengths_body_append {c : Config} (hwf : c.wf = true) (bs : List Bool) {ss : List Sample}
    (h : ss.head? ≠ some .zero) : runLengths (body c bs ++ ss) = runLengths (body c bs) ++ runLengths ss := by
  induction bs with
  | nil => rfl
  | cons v bs ih =>
    rw [body_cons, List.append_assoc, runLengths_bitSamples_append hwf v (head?_body_append_ne_zero hwf bs h), ih,
      runLengths_bitSamples_append hwf v (head?_body_ne_zero hwf bs)]
    rfl

/-- Zero-amplitude samples after a bit lengthen its pause: the gap after a continuation bit, and the trailing flush run
after the last bit (R173). -/
theorem runLengths_bitSamples_zeroRun_append {c : Config} (hwf : c.wf = true) (v : Bool) (n : Nat) {ss : List Sample}
    (h : ss.head? ≠ some .zero) :
    runLengths (bitSamples c v ++ (zeroRun n ++ ss))
      = [(.full, c.pulseLength v), (.zero, c.pauseLength v + n)] ++ runLengths ss := by
  have hpause := Config.pauseLength_pos hwf v
  have hhead : (List.replicate (c.pauseLength v + n) Sample.zero ++ ss).head? ≠ some .full := by
    simp [List.head?_append, List.head?_replicate, Nat.ne_of_gt hpause]
  have hmerge : bitSamples c v ++ (zeroRun n ++ ss)
      = List.replicate (c.pulseLength v) .full ++ (List.replicate (c.pauseLength v + n) .zero ++ ss) := by
    simp only [bitSamples, fullRun, zeroRun, List.replicate_add, List.append_assoc]
  rw [hmerge, runLengths_replicate_append (Config.pulseLength_pos hwf v) hhead,
    runLengths_replicate_append (Nat.le_add_right_of_le hpause) h]
  rfl

/-- The runs of a repetition that is not the final one: those of its body, the continuation pulse, and the continuation
pause with the blank gap. -/
def runsUntilNext (c : Config) (bs : List Bool) : List (Sample × Nat) :=
  runLengths (body c bs) ++ [(.full, c.short), (.zero, c.long + c.blankLen)]

theorem runLengths_body_append_separator_append {c : Config} (hwf : c.wf = true) (bs : List Bool) {ss : List Sample}
    (h : ss.head? ≠ some .zero) :
    runLengths (body c bs ++ (separator c ++ ss)) = runsUntilNext c bs ++ runLengths ss := by
  rw [runLengths_body_append hwf bs (head?_separator_append_ne_zero hwf ss), separator, List.append_assoc,
    runLengths_bitSamples_zeroRun_append hwf false c.blankLen h, ← List.append_assoc]
  rfl

/-- Whole repetitions in front of a sequence that does not begin with a zero-amplitude sample add their own runs. -/
theorem runLengths_repetitions_append {c : Config} (hwf : c.wf = true) (bs : List Bool) (n : Nat) {ss : List Sample}
    (h : ss.head? ≠ some .zero) :
    ((List.replicate n (body c bs ++ separator c)).flatten ++ ss).head? ≠ some .zero ∧
      runLengths ((List.replicate n (body c bs ++ separator c)).flatten ++ ss)
        = (List.replicate n (runsUntilNext c bs)).flatten ++ runLengths ss := by
  induction n with
  | zero => exact ⟨h, rfl⟩
  | succ n ih =>
    obtain ⟨hhead, hruns⟩ := ih
    simp only [List.replicate_succ, List.flatten_cons, List.append_assoc]
    exact ⟨head?_body_append_ne_zero hwf bs (head?_separator_append_ne_zero hwf _),
      by rw [runLengths_body_append_separator_append hwf bs hhead, hruns]⟩

/-- The last bit sent is the state (R104), so a body ends with that bit. -/
theorem exists_body_bitString_append_eq (c : Config) (cmd : Command) :
    ∃ bs, ∀ ss, body c (bitString cmd) ++ ss = body c bs ++ (bitSamples c cmd.state ++ ss) := by
  have hlast : (bitString cmd).getLast? = some cmd.state := by
    rw [List.getLast?_eq_getElem?, length_bitString]
    exact (bits_of_state_slot cmd).2
  obtain ⟨bs, hbs⟩ := List.getLast?_eq_some_iff.mp hlast
  refine ⟨bs, fun ss => ?_⟩
  rw [hbs, body, List.flatMap_append, List.flatMap_singleton, List.append_assoc, ← body]

/-- Zero-amplitude samples after a body lengthen the pause of its last bit and leave the other runs. -/
theorem runLengths_body_append_zeroRun {c : Config} (hwf : c.wf = true) (cmd : Command) (n : Nat) :
    runLengths (body c (bitString cmd) ++ zeroRun n)
      = (runLengths (body c (bitString cmd))).dropLast ++ [(.zero, c.pauseLength cmd.state + n)] := by
  obtain ⟨bs, hbs⟩ := exists_body_bitString_append_eq c cmd
  have hsplit : ∀ k, runLengths (body c (bitString cmd) ++ zeroRun k)
      = runLengths (body c bs) ++ [(.full, c.pulseLength cmd.state), (.zero, c.pauseLength cmd.state + k)] := by
    intro k
    have hbit := runLengths_bitSamples_zeroRun_append hwf cmd.state k (ss := []) nofun
    rw [List.append_nil, runLengths_nil, List.append_nil] at hbit
    rw [hbs, runLengths_body_append hwf bs (head?_bitSamples_append_ne_zero hwf cmd.state _), hbit]
  have hbody := hsplit 0
  rw [zeroRun_zero, List.append_nil] at hbody
  rw [hsplit, hbody, List.dropLast_append_of_ne_nil (by nofun), List.append_assoc]
  rfl

/-- The maximal runs of a transmission (R173): the leading flush run, five repetitions with their separators, and the
final body, whose last pause the trailing flush run lengthens. -/
theorem runLengths_txs {c : Config} (hwf : c.wf = true) (cmd : Command) :
    runLengths (txs c cmd) = [(.zero, c.flushLen)] ++ (List.replicate 5 (runsUntilNext c (bitString cmd))).flatten
      ++ (runLengths (body c (bitString cmd))).dropLast ++ [(.zero, c.pauseLength cmd.state + c.flushLen)] := by
  obtain ⟨-, -, hflush, -⟩ := c.wf_iff.mp hwf
  obtain ⟨bs, hbs⟩ := exists_body_bitString_append_eq c cmd
  have hfinal : (body c (bitString cmd) ++ zeroRun c.flushLen).head? ≠ some .zero := by
    rw [hbs]
    exact head?_body_append_ne_zero hwf bs (head?_bitSamples_append_ne_zero hwf cmd.state _)
  obtain ⟨hhead, hruns⟩ := runLengths_repetitions_append hwf (bitString cmd) 5 hfinal
  calc runLengths (txs c cmd)
    _ = runLengths (zeroRun c.flushLen ++ ((List.replicate 5 (body c (bitString cmd) ++ separator c)).flatten
          ++ (body c (bitString cmd) ++ zeroRun c.flushLen))) := by
        rw [txs_eq, List.append_assoc, List.append_assoc]
    _ = (.zero, c.flushLen) :: ((List.replicate 5 (runsUntilNext c (bitString cmd))).flatten
          ++ runLengths (body c (bitString cmd) ++ zeroRun c.flushLen)) := by
        rw [← hruns]
        exact runLengths_replicate_append hflush hhead
    _ = _ := by
        rw [runLengths_body_append_zeroRun hwf, ← List.append_assoc]
        rfl

/-- Each bit of a body is one pulse (R149). -/
theorem countP_full_runLengths_body {c : Config} (hwf : c.wf = true) (bs : List Bool) :
    (runLengths (body c bs)).countP (fun q => decide (q.1 = .full)) = bs.length := by
  simp [runLengths_body hwf, List.countP_flatMap, Function.comp_def]

/-- The last run of a body is a pause, so the runs before it hold all its pulses. -/
theorem countP_full_dropLast_runLengths_body {c : Config} (hwf : c.wf = true) (cmd : Command) :
    (runLengths (body c (bitString cmd))).dropLast.countP (fun q => decide (q.1 = .full)) = (bitString cmd).length := by
  have hlast := runLengths_body_append_zeroRun hwf cmd 0
  rw [zeroRun_zero, List.append_nil] at hlast
  rw [← countP_full_runLengths_body hwf, hlast]
  simp

/-! ### The obligations -/

/-- Settles O17: by where the index lies, in a flush run or at its residue in one stride. -/
theorem sampleIsTransmissionElement : Obligations.SampleIsTransmissionElement := by
  unfold Obligations.SampleIsTransmissionElement
  intro c cmd n hwf hn
  exact getElem?_txs hwf cmd hn

/-- Settles O18: from the lengths of the segments, two bytes a sample. -/
theorem transmissionLength : Obligations.TransmissionLength := by
  unfold Obligations.TransmissionLength
  refine ⟨fun cmd flush ports => ⟨length_txs_reference cmd flush ports, ?_⟩, fun c cmd => ?_⟩
  · rw [tx, length_bytesOf, length_txs_reference]
    omega
  · exact ⟨length_txs c cmd, length_txs c cmd, length_tx c cmd, rfl⟩

/-- Settles O19: what follows the first `r` repetitions, cut at the ends of the segments. -/
theorem segmentMap : Obligations.SegmentMap := by
  unfold Obligations.SegmentMap
  intro c cmd
  refine ⟨?_, fun r hr => ?_, fun r k v hr hv => ?_, fun r hr => ?_, fun r hr => ⟨?_, ?_⟩, ?_⟩
  · rw [txs, List.append_assoc, List.take_left' (length_zeroRun _)]
  · obtain ⟨rest, h⟩ := exists_drop_txs_eq_body c cmd hr
    rw [h, List.take_left' (length_body_bitString c cmd)]
  · obtain ⟨rest, h⟩ := exists_drop_txs_eq_body c cmd hr
    rw [← List.drop_drop, h, take_drop_body_append hv]
  · obtain ⟨rest, h⟩ := exists_drop_txs_eq_repetition c cmd hr
    rw [← List.drop_drop, h, drop_bodyLen_body_append, List.take_left' (length_bitSamples c false)]
  · obtain ⟨rest, h⟩ := exists_drop_txs_eq_repetition c cmd hr
    rw [← List.drop_drop, ← List.drop_drop, h, drop_bodyLen_body_append,
      List.drop_left' (length_bitSamples c false), List.take_left' (length_zeroRun _)]
  · rw [Nat.succ_mul, Config.repStride]
    omega
  · rw [← List.drop_drop, drop_txs_final, drop_bodyLen_body_append]

/-- Settles O20: the samples of the pulses, and one byte 255 for each of them. -/
theorem fullAmplitudeCount : Obligations.FullAmplitudeCount := by
  unfold Obligations.FullAmplitudeCount
  refine ⟨count_full_txs_reference, fun c cmd => ⟨count_full_txs c cmd, ?_, fun v hv => byte_of_mem_bytesOf hv⟩⟩
  rw [tx, count_bytesOf, count_full_txs]

/-- Settles O21: the runs of the segments, merged where a gap or a flush run follows a pause, and their numbers. -/
theorem transmissionRunStructure : Obligations.TransmissionRunStructure := by
  unfold Obligations.TransmissionRunStructure
  intro c cmd hwf
  have hruns := runLengths_txs hwf cmd
  have hbits : (bitString cmd).length = 24 := length_bitString cmd
  have hlen := length_runLengths_body hwf (bitString cmd)
  have hpulses := countP_full_runLengths_body hwf (bitString cmd)
  have hinner := countP_full_dropLast_runLengths_body hwf cmd
  rw [hbits] at hlen hpulses hinner
  refine ⟨?_, ?_, ?_⟩
  · rw [hruns, runsUntilNext, runLengths_body hwf]
  · simp [hruns, runsUntilNext, hlen]
  · rw [← List.countP_eq_length_filter, hruns]
    simp [runsUntilNext, hpulses, hinner]

end Sys2Proof.Machine

/-! ## Sequencer (43_sequencer.md): each transition, the waits, the grants, the whole synthesis -/

namespace Sys2Proof.Machine

/-! ### Accept and the request ports (R183, R184, R189) -/

/-- With a port granted the step accepts the word pending there (R183). -/
theorem step_of_granted {s : State} {p : Nat} {w : CmdWord} {i : Instr} (hwf : s.cfg.wf = true) (hrst : s.rst = false)
    (hphase : s.phase = .idle) (hgrant : s.granted = some p) (hword : s.reqAt p = some w)
    (hdecode : decode w = some i) : step s = .next (s.accept p w).advance := by
  obtain rfl := encode_of_decode hdecode
  exact step_accept hwf hrst hphase hgrant hword hdecode

/-- The Command of the granted port, run by exec, is taken from that port. -/
theorem exec_of_granted {s : State} {p : Nat} {i : Instr} (hphase : s.phase = .idle) (hgrant : s.granted = some p)
    (hword : s.reqAt p = some (encode i)) : exec i s = .next (s.accept p (encode i)) := by
  rw [exec_eq_runCommand, State.runCommand_idle_some hphase (State.portOf_of_granted hgrant hword)]

/-- With a legal word pending the arbiter grants some port, whatever its choice (R184). -/
theorem State.exists_granted_of_pending {s : State} {p : Nat} {w : CmdWord} {i : Instr} (hp : p < s.cfg.nPorts)
    (hword : s.reqAt p = some w) (hdecode : decode w = some i) : ∃ q, s.granted = some q := by
  refine Option.ne_none_iff_exists'.mp fun hnone => ?_
  have hreserved := s.granted_eq_none_iff.mp hnone p w hp hword
  rw [hdecode] at hreserved
  cases hreserved

/-- Accept completes the submission of the port it takes from (R183). -/
theorem State.reqAt_accept_same (s : State) (p : Nat) (w : CmdWord) : (s.accept p w).reqAt p = none := by
  rw [State.reqAt, State.accept_req, getElem?_set_join]
  split
  · rfl
  · next hout =>
    have hge : s.req.length ≤ p := by simpa using hout
    rw [List.getElem?_eq_none hge, Option.join_none]

/-- No transition but the accept of its own port takes a pending word away (R189). -/
theorem State.Transition.keeps_reqAt {s u : State} {p : Nat} {w : CmdWord} (htr : s.Transition u) (hrst : s.rst = false)
    (hword : s.reqAt p = some w) (hready : s.reqReady p = false) : u.reqAt p = some w := by
  cases htr with
  | accept q v i hphase hgrant =>
    have hne : p ≠ q := by
      rintro rfl
      rw [(s.reqReady_iff p).mpr ⟨hrst, hphase, hgrant⟩] at hready
      cases hready
    exact (State.reqAt_accept_of_ne v hne).trans hword
  | _ => exact hword

/-! ### The placed word (log 17) -/

/-- The word placed is pending on port 0. -/
theorem State.reqAt_withFetchWord_zero {s : State} (nbits w : Nat) (hports : 0 < s.cfg.nPorts) :
    (s.withFetchWord nbits w).reqAt 0 = some (BitVec.ofNat 5 w) := by
  rw [State.reqAt, State.withFetchWord_req, getElem?_set_join,
    if_pos ⟨rfl, by rw [List.length_replicate]; exact hports⟩]

/-- So a Command's word placed there is granted, the arbiter beginning at port 0. -/
theorem State.granted_withFetchWord {s : State} {nbits w : Nat} {i : Instr} (hports : 0 < s.cfg.nPorts)
    (hword : (s.withFetchWord nbits w).reqAt 0 = some (encode i)) : (s.withFetchWord nbits w).granted = some 0 :=
  State.granted_of_arb_eq hports rfl ((State.pendingLegal_iff _ 0).mpr ⟨_, i, hword, decode_encode i⟩)

/-! ### Waits (R188) -/

/-- With nothing pending in IDLE no word is fetched. -/
theorem State.fetch_of_nothing_pending {s : State} (hphase : s.phase = .idle)
    (hnone : ∀ p, p < s.cfg.nPorts → s.reqAt p = none) : s.fetch = none := by
  have hgrant : s.granted = none := s.granted_eq_none_iff.mpr fun p w hp hword => by
    rw [hnone p hp] at hword
    cases hword
  rw [State.fetch_idle_none hphase hgrant, List.findSome?_eq_none_iff]
  exact fun p hp => hnone p ((s.mem_portOrder p).mp hp)

/-- While the sink is only slow, the environment alone moves (log 12). -/
theorem State.HoldsTransmission.step_of_slow {s : State} {c : Command} (h : s.HoldsTransmission c)
    (hrst : s.rst = false) (hready : s.outReady = false) (hfail : s.sinkFail = false) : step s = .next s.advance := by
  rw [step_of_command h.config hrst (State.fetch_drain h.phase) h.command, State.runCommand_drain h.phase,
    State.drain_of_slow hready hfail, thenAdvance]

/-- The three waiting situations of R188, each by what its phase fetches and runs. -/
theorem State.Inv.step_of_waiting {s : State} (h : s.Inv) (hrst : s.rst = false) (hwait : s.Waiting) :
    step s = .next s.advance := by
  obtain ⟨hphase, hnone⟩ | ⟨hphase, hready, hfail⟩ | hphase := hwait
  · exact step_of_fetch_none h.config hrst (State.fetch_of_nothing_pending hphase hnone)
  · obtain ⟨-, c, hb⟩ := h.drain_row hphase
    exact hb.step_of_slow hrst hready hfail
  · exact step_of_fetch_none h.config hrst (State.fetch_halt hphase)

/-- A transition that is no wait writes PHASE, SIDX or RD. -/
theorem State.Transition.waiting_of_unchanged {s u : State} (htr : s.Transition u) (hphase : u.phase = s.phase)
    (hsidx : u.sidx = s.sidx) (hrd : u.rd = s.rd) : s.Waiting := by
  cases htr with
  | accept p w i hidle => rw [hidle] at hphase; cases hphase
  | synthesize c => exact absurd hsidx (Nat.succ_ne_self s.sidx)
  | deliver v => exact absurd hrd (Nat.succ_ne_self s.rd)
  | lastByte v hdrain => rw [hdrain] at hphase; cases hphase
  | sinkFault hdrain => rw [hdrain] at hphase; cases hphase
  | nothingPending hidle hnone => exact .inl ⟨hidle, hnone⟩
  | slowSink hdrain hready hfail => exact .inr (.inl ⟨hdrain, hready, hfail⟩)
  | halted hhalt => exact .inr (.inr hhalt)

/-! ### Drain (R186) -/

/-- A Command run in DRAIN delivers one byte while the sink is ready, whichever Command it is (log 11). -/
theorem exec_drain_of_ready {i : Instr} {s : State} (hphase : s.phase = .drain) (hready : s.outReady = true)
    (hfail : s.sinkFail = false) : exec i s = s.drainByte := by
  rw [exec_eq_runCommand, State.runCommand_drain hphase, State.drain_of_ready hready hfail]

/-! ### Synthesis from any of its states (R185) -/

/-- A block in SYNTH holds the first SIDX samples of its Command. -/
theorem State.Inv.synthesized_sidx {s : State} {c : Command} (h : s.Inv) (hphase : s.phase = .synth)
    (hc : s.command = some c) : s.synthesized c s.sidx = s := by
  obtain ⟨hlt, -, c', hc', hbuf⟩ := h.synth_row hphase
  obtain rfl : c' = c := Option.some.inj (hc'.symm.trans hc)
  rw [State.synthesized, if_neg hlt.ne, ← hbuf, ← hphase]

/-- The remaining `TX_SAMPLES - SIDX` steps complete the synthesis: the first sees the present inputs, the others those
the schedule sets. -/
theorem State.Inv.run_synthesis {s : State} {c : Command} (h : s.Inv) (hphase : s.phase = .synth)
    (hc : s.command = some c) (hrst : s.rst = false) (henv : s.cfg.txSamples ≤ s.sidx + 1 + s.env.length)
    (hquiet : ∀ mv ∈ s.env.take (s.cfg.txSamples - s.sidx - 1), mv.rst = false) :
    ∃ u, run (s.cfg.txSamples - s.sidx) s = .next u.advance ∧ (s.synthesized c s.cfg.txSamples).SameBlock u := by
  obtain ⟨hlt, -⟩ := h.synth_row hphase
  have hstart : (s.synthesized c s.sidx).SameBlock s := (h.synthesized_sidx hphase hc).symm ▸ State.SameBlock.refl s
  obtain ⟨hstep, hblock⟩ := hstart.step_synthesized h.config hc hlt hrst
  obtain ⟨k, hk⟩ : ∃ k, s.cfg.txSamples = s.sidx + 1 + k := ⟨s.cfg.txSamples - (s.sidx + 1), by omega⟩
  rw [show s.cfg.txSamples - s.sidx - 1 = k by omega] at hquiet
  have hmoves : k ≤ s.env.length := by omega
  obtain ⟨u, hrun, hu, -⟩ := run_synthesized hblock h.config hc hk.ge hmoves hquiet k le_rfl
  refine ⟨u, ?_, hk ▸ hu⟩
  rw [show s.cfg.txSamples - s.sidx = k + 1 by omega, run_succ_of_next hstep, hrun]

/-! ### The obligations -/

/-- Settles O23: the port that presents the Command, and the accept from it. -/
theorem acceptLatchesTheCommand : Obligations.AcceptLatchesTheCommand := by
  unfold Obligations.AcceptLatchesTheCommand
  intro i s q hphase hq hword
  obtain ⟨p, hport, hexec⟩ := exec_accepts_presented hphase hq hword
  obtain ⟨hp, hpresented⟩ := State.portOf_spec hport
  exact ⟨p, hp, hpresented, hexec⟩

/-- Settles O24: the append's preconditions hold, and the sample's two bytes are the ones listed. -/
theorem synthesizeAppendsOneSample : Obligations.SynthesizeAppendsOneSample := by
  unfold Obligations.SynthesizeAppendsOneSample
  intro i s hphase hcmd hlen hlt
  have hc : s.command = some i.command := State.command_of_decode (hcmd ▸ decode_encode i)
  rw [exec_eq_runCommand, State.runCommand_synth hphase, State.synthesize_eq_next hc hlen hlt, State.afterSynth,
    Sample.bytes_eq]
  rfl

/-- Settles O25: the drain step on a byte that is not the last. -/
theorem drainDeliversOneByte : Obligations.DrainDeliversOneByte := by
  unfold Obligations.DrainDeliversOneByte
  intro i s v hphase hready hfail hlen hread hmore
  rw [exec_drain_of_ready hphase hready hfail, State.drainByte_of_more hlen hread hmore]
  rfl

/-- Settles O26: the drain step on the last byte. -/
theorem lastByteEndsTheDrain : Obligations.LastByteEndsTheDrain := by
  unfold Obligations.LastByteEndsTheDrain
  intro i s v hphase hready hfail hlen hread hlast
  rw [exec_drain_of_ready hphase hready hfail, State.drainByte_of_last hlen hread hlast]
  rfl

/-- Settles O28: the drain step on a slow sink. -/
theorem slowSinkChangesNothing : Obligations.SlowSinkChangesNothing := by
  unfold Obligations.SlowSinkChangesNothing
  intro i s hphase hready hfail
  rw [exec_eq_runCommand, State.runCommand_drain hphase, State.drain_of_slow hready hfail]

/-- Settles O32: a fetched word that decodes is run, and where that goes on the environment moves. -/
theorem stepRunsDecodedInstruction : Obligations.StepRunsDecodedInstruction := by
  unfold Obligations.StepRunsDecodedInstruction
  intro s t w i hwf hrst hfetch hdecode
  have hstep := step_of_decode_some hwf hrst hfetch hdecode
  exact ⟨hstep, fun hexec => by rw [hstep, hexec, thenAdvance]⟩

/-- Settles O34: a legal configuration has a port 0, where the placed word is granted. -/
theorem placedWordRunsNext : Obligations.PlacedWordRunsNext := by
  unfold Obligations.PlacedWordRunsNext
  intro s nbits w i hwf hdecode
  obtain ⟨-, -, -, hports⟩ := s.cfg.wf_iff.mp hwf
  have hword : (s.withFetchWord nbits w).reqAt 0 = some (encode i) := by
    rw [State.reqAt_withFetchWord_zero nbits w hports, (decodeTableWord_eq_some_iff nbits w i).mp hdecode,
      BitVec.ofNat_toNat, BitVec.setWidth_eq]
  have hgrant := State.granted_withFetchWord hports hword
  exact ⟨step_of_decode_some hwf rfl ((State.fetch_idle_granted rfl hgrant).trans hword) (decode_encode i),
    exec_of_granted rfl hgrant hword⟩

/-- Settles O36: a wait situation by situation, and the other transitions each by the element it writes. -/
theorem waitingStepMovesOnlyEnvironment : Obligations.WaitingStepMovesOnlyEnvironment := by
  unfold Obligations.WaitingStepMovesOnlyEnvironment
  intro s h hrst
  refine ⟨h.step_of_waiting hrst, fun t hstep hphase hsidx hrd => ?_⟩
  obtain ⟨u, htr, rfl⟩ := transition_of_step hrst hstep
  exact htr.waiting_of_unchanged hphase hsidx hrd

/-- Settles O42: the choice that grants port `p` is `p` itself. -/
theorem everyPendingPortCanBeGranted : Obligations.EveryPendingPortCanBeGranted := by
  unfold Obligations.EveryPendingPortCanBeGranted
  intro s p w i hwf hrst hphase hp hword hdecode
  have hgrant : ({ s with arb := p } : State).granted = some p :=
    State.granted_of_arb_eq hp rfl ((State.pendingLegal_iff _ p).mpr ⟨w, i, hword, hdecode⟩)
  exact ⟨State.exists_granted_of_pending hp hword hdecode, p, step_of_granted hwf hrst hphase hgrant hword hdecode,
    (State.reqReady_iff _ p).mpr ⟨hrst, hphase, hgrant⟩⟩

/-- Settles O43: the granted port is the only one that the accept clears and the only one that is ready. -/
theorem grantTakesExactlyOnePort : Obligations.GrantTakesExactlyOnePort := by
  unfold Obligations.GrantTakesExactlyOnePort
  intro s p hwf hrst hphase hgrant
  obtain ⟨hp, w, i, hword, hdecode⟩ := State.granted_spec hgrant
  refine ⟨w, i, hp, hword, hdecode, step_of_granted hwf hrst hphase hgrant hword hdecode, s.reqAt_accept_same p w,
    fun q => State.reqAt_accept_of_ne w, fun q => ?_⟩
  rw [Bool.eq_iff_iff, s.reqReady_iff, hgrant, decide_eq_true_iff, Option.some.injEq]
  exact ⟨fun ⟨_, _, hpq⟩ => hpq.symm, fun hqp => ⟨hrst, hphase, hqp.symm⟩⟩

/-- Settles O48: a reset step keeps the request slots, and so does every transition that does not accept the word. -/
theorem pendingSubmissionWaitsForItsAccept : Obligations.PendingSubmissionWaitsForItsAccept := by
  unfold Obligations.PendingSubmissionWaitsForItsAccept
  intro s t p w hstep hword hready
  obtain ⟨-, ⟨-, rfl⟩ | ⟨hrst, u, htr, rfl⟩⟩ := step_cases hstep
  · exact State.reqAt_advance (s := s.resetStep) hword
  · exact State.reqAt_advance (htr.keeps_reqAt hrst hword hready)

/-- Settles O52: the wait changes neither BUF nor RD, and both ports show them as long as there is no reset. -/
theorem stalledByteIsHeld : Obligations.StalledByteIsHeld := by
  unfold Obligations.StalledByteIsHeld
  intro s h hrst hphase hready hfail
  obtain ⟨-, c, hb⟩ := h.drain_row hphase
  have hread : s.buf.read s.rd = some _ :=
    (hb.read_buf s.rd).trans (List.getElem?_eq_getElem (by rw [length_tx]; exact h.rdMax))
  have hvalid : s.outValid = true := s.outValid_iff.mpr ⟨hrst, hphase⟩
  refine ⟨s.advance, _, hb.step_of_slow hrst hready hfail, hread, hvalid, State.outData_of_outValid hvalid hread,
    hphase, rfl, rfl, rfl, fun hrst' => ?_⟩
  have hvalid' : s.advance.outValid = true := s.advance.outValid_iff.mpr ⟨hrst', hphase⟩
  exact ⟨hvalid', State.outData_of_outValid hvalid' hread⟩

/-- Settles O58: the synthesis runs to its last sample, and then the block holds the whole transmission. -/
theorem synthesisRunsToTheWholeTransmission : Obligations.SynthesisRunsToTheWholeTransmission := by
  unfold Obligations.SynthesisRunsToTheWholeTransmission
  intro s c h hphase hc hrst henv hquiet
  obtain ⟨-, hrd, -⟩ := h.synth_row hphase
  obtain ⟨u, hrun, hu⟩ := h.run_synthesis hphase hc hrst henv hquiet
  have hb := State.holdsTransmission_synthesized h.config hc
  refine ⟨u.advance, hrun, hu.phase.trans hb.phase, hu.rd.trans hrd, hu.cmd, ?_, hu.sink⟩
  rw [State.advance_buf, hu.buf, hb.buf, Memory.ofBytes, Memory.bytes_cellsFrom]
  rfl

end Sys2Proof.Machine

/-! ## Exceptions (60_exceptions.md): the fault entry, HALT and the sink's inputs -/

namespace Sys2Proof.Machine

/-! ### The output ports outside the phase they serve (R31) -/

/-- Outside IDLE no port's submission is taken. -/
theorem State.reqReady_of_ne_idle {s : State} (hphase : s.phase ≠ .idle) (p : Nat) : s.reqReady p = false :=
  Bool.eq_false_iff.mpr fun hready =>
    have ⟨_, hidle, _⟩ := (s.reqReady_iff p).mp hready
    hphase hidle

/-- Outside DRAIN no byte is offered to the sink. -/
theorem State.outValid_of_ne_drain {s : State} (hphase : s.phase ≠ .drain) : s.outValid = false :=
  Bool.eq_false_iff.mpr fun hvalid =>
    have ⟨_, hdrain⟩ := s.outValid_iff.mp hvalid
    hphase hdrain

/-! ### What a Command does on a failing sink and in HALT (R205, R206) -/

/-- A Command run in DRAIN on a failing sink enters the fault, whichever Command it is (R203, R205). -/
theorem exec_drain_of_fail (i : Instr) {s : State} (hphase : s.phase = .drain) (hfail : s.sinkFail = true) :
    exec i s = .next s.raiseSinkFault := by
  rw [exec_eq_runCommand, State.runCommand_drain hphase, State.drain_of_fail hfail]

/-- In HALT no Command does anything (log 12). -/
theorem exec_halt (i : Instr) {s : State} (hphase : s.phase = .halt) : exec i s = .next s := by
  rw [exec_eq_runCommand, State.runCommand_halt hphase]

/-! ### What exec looks at outside DRAIN (R203) -/

/-- The state with other levels on the sink's two inputs. -/
def State.withSinkInputs (s : State) (b f : Bool) : State := { s with outReady := b, sinkFail := f }

@[simp] theorem State.withSinkInputs_cfg (s : State) (b f : Bool) : (s.withSinkInputs b f).cfg = s.cfg := rfl
@[simp] theorem State.withSinkInputs_command (s : State) (b f : Bool) :
    (s.withSinkInputs b f).command = s.command := rfl
@[simp] theorem State.withSinkInputs_sidx (s : State) (b f : Bool) : (s.withSinkInputs b f).sidx = s.sidx := rfl
@[simp] theorem State.withSinkInputs_buf (s : State) (b f : Bool) : (s.withSinkInputs b f).buf = s.buf := rfl
@[simp] theorem State.withSinkInputs_appendAddress (s : State) (b f : Bool) :
    (s.withSinkInputs b f).appendAddress = s.appendAddress := rfl

/-- The synthesize step does not look at them: the Command and the append decide its outcome. -/
theorem State.withSinkInputs_synthesize (s : State) (b f : Bool) :
    (s.withSinkInputs b f).synthesize = onNextState (State.withSinkInputs · b f) s.synthesize := by
  simp only [State.synthesize, withSinkInputs_command, withSinkInputs_buf, withSinkInputs_appendAddress,
    withSinkInputs_cfg, withSinkInputs_sidx]
  split
  · rfl
  · split <;> rfl

/-! ### The obligations -/

/-- Settles O39: reset is the one way out, and without it the environment alone moves; both keep the request slots. -/
theorem onlyResetLeavesHalt : Obligations.OnlyResetLeavesHalt := by
  unfold Obligations.OnlyResetLeavesHalt
  intro s hwf hphase
  have hready := State.reqReady_of_ne_idle (s := s) (by rw [hphase]; nofun)
  refine ⟨fun i => exec_halt i hphase, ?_⟩
  cases hrst : s.rst with
  | true =>
    exact ⟨s.resetStep.advance, step_of_rst hwf hrst, fun _ => ⟨rfl, rfl, rfl, rfl⟩, nofun,
      fun p w => State.reqAt_advance (s := s.resetStep), hready⟩
  | false =>
    exact ⟨s.advance, step_of_fetch_none hwf hrst (State.fetch_halt hphase), nofun, fun _ => ⟨hphase, rfl, rfl⟩,
      fun p w => State.reqAt_advance, hready⟩

/-- Settles O49: phase by phase. Accept looks at the request ports, synthesize at the Command and the buffer, and in
HALT nothing moves. -/
theorem sinkInputsIgnoredOutsideDrain : Obligations.SinkInputsIgnoredOutsideDrain := by
  unfold Obligations.SinkInputsIgnoredOutsideDrain
  intro i s b f hphase
  change exec i (s.withSinkInputs b f) = onNextState (State.withSinkInputs · b f) (exec i s)
  rw [exec_eq_runCommand, exec_eq_runCommand]
  cases hp : s.phase with
  | idle =>
    cases hport : s.portOf (encode i) with
    | none =>
      rw [State.runCommand_idle_none hp hport, State.runCommand_idle_none (s := s.withSinkInputs b f) hp hport]
      rfl
    | some p =>
      rw [State.runCommand_idle_some hp hport, State.runCommand_idle_some (s := s.withSinkInputs b f) hp hport]
      rfl
  | synth =>
    rw [State.runCommand_synth hp, State.runCommand_synth (s := s.withSinkInputs b f) hp, s.withSinkInputs_synthesize]
  | drain => exact absurd hp hphase
  | halt =>
    rw [State.runCommand_halt hp, State.runCommand_halt (s := s.withSinkInputs b f) hp]
    rfl

/-- Settles O29: the fault entry writes FAULT and PHASE, and leaves SINK and the request slots. -/
theorem sinkFaultEntry : Obligations.SinkFaultEntry := by
  unfold Obligations.SinkFaultEntry
  intro i s hphase hfail
  exact ⟨s.raiseSinkFault, exec_drain_of_fail i hphase hfail, rfl, rfl, rfl, rfl, rfl,
    State.outValid_of_ne_drain nofun⟩

end Sys2Proof.Machine

/-! ## Reset (70_reset_and_hazards.md): a reset step wins over everything -/

namespace Sys2Proof.Machine

/-! ### The output ports in a reset step (R31, R220) -/

/-- In a reset step no byte is offered to the sink. -/
theorem State.outValid_of_rst {s : State} (hrst : s.rst = true) : s.outValid = false :=
  Bool.eq_false_iff.mpr fun hvalid =>
    have ⟨hlow, _⟩ := s.outValid_iff.mp hvalid
    Bool.eq_false_iff.mp hlow hrst

/-- In a reset step no port's submission is taken. -/
theorem State.reqReady_of_rst {s : State} (hrst : s.rst = true) (p : Nat) : s.reqReady p = false :=
  Bool.eq_false_iff.mpr fun hready =>
    have ⟨hlow, _⟩ := (s.reqReady_iff p).mp hready
    Bool.eq_false_iff.mp hlow hrst

/-! ### The obligation -/

/-- Settles O37: the step is `resetStep` and then the environment's move, which writes no element of the block and keeps
every pending submission. -/
theorem resetStepWinsOverEverything : Obligations.ResetStepWinsOverEverything := by
  unfold Obligations.ResetStepWinsOverEverything
  intro s hwf hrst
  exact ⟨s.resetStep.advance, step_of_rst hwf hrst, rfl, rfl, rfl, rfl, rfl, rfl, rfl,
    fun _ _ => State.reqAt_advance (s := s.resetStep), State.outValid_of_rst hrst, State.reqReady_of_rst hrst⟩

end Sys2Proof.Machine
